-- ==== Sys2Proof/Word.lean ====
section
/-! DEFINITION. The two word types of the LS-8 core: the 8-bit byte of registers, memory and instructions, and the register index. -/

namespace Sys2Proof

/-- A data byte, register value, instruction byte or stack byte: 8 bits, unsigned 0..255 (R6, R20, R35). -/
abbrev Byte := BitVec 8

/-- A general register's number, 0..7 (R20). -/
abbrev RegIndex := Fin 8

end Sys2Proof
end

