-- ==== Sys2Proof/Config.lean ====
section
/-! DEFINITION. The implementation parameters of R6, and the two launch parameters the spec leaves open: FL_RESET (R31) and the
fill of the launch image M0 (R161). -/

namespace Sys2Proof

/-- `MEM_SIZE`: the number of memory bytes (R6, R35). -/
def Config.memSize : Nat := 256

/-- `SP_INDEX`: the register used as the stack pointer (R6, R21). -/
def Config.spIndex : RegIndex := 7

/-- `SP_RESET`: the reset value of R7 (R6, R23). -/
def Config.spReset : Byte := 0xF4#8

/-- The reset value of the pc (R6, R162). -/
def Config.pcReset : Nat := 0

/-- `LOAD_BASE`: where the loader places the program (R6, R131). -/
def Config.loadBase : Nat := 0

/-- The longest instruction, in bytes (R60). -/
def Config.maxLength : Nat := 3

/-- The four values `FL_RESET` may take: all false, or exactly one flag true (R31). -/
inductive FlReset
  | allFalse
  | equal
  | less
  | greater
deriving DecidableEq, Repr

/-- `FL_RESET` of the machine's `State.reset`: all false, the default R31 names for executable runs.
DESIGN CHOICE, unsafe (log entry 3). `State.launch` takes any of the four values. -/
def Config.flReset : FlReset := .allFalse

/-- What a memory byte that neither the loader nor a store has written reads as: 0x00, the default R161 names for executable
runs. DESIGN CHOICE, unsafe (log entry 4). -/
def Config.memFill : Byte := 0x00#8

end Sys2Proof
end

