-- ==== Sys2Proof/Machine/State.lean ====
section
/-! DEFINITION. The complete state of the core (R38) as plain data, the reasons a step can stop, and the state after reset (R160). -/

namespace Sys2Proof.Machine

/-- The flags register: three separate booleans (R29). At most one is true (R31); that is an invariant, not part of the type. -/
structure Flags where
  /-- FL.E, equal. -/
  e : Bool
  /-- FL.L, less-than. -/
  l : Bool
  /-- FL.G, greater-than. -/
  g : Bool
deriving DecidableEq, Repr

/-- The causes of a fatal condition (R141). Code 0, NONE, is the absence of a record. -/
inductive Cause
  /-- MEM_BOUNDS, code 1: an access outside 0..255; only a fetch can reach it (R143). -/
  | memBounds
  /-- ILLEGAL_REGISTER, code 2: a register operand byte of 8 or more (R142). -/
  | illegalRegister
  /-- UNSUPPORTED_ALU_OP, code 3: no program reaches it, and this model raises it nowhere (R84, R145; log entry 10). -/
  | unsupportedAluOp
deriving DecidableEq, Repr

/-- What a `raise` carries: the cause and its info value (R10, R141). -/
structure Raise where
  cause : Cause
  info : Nat
deriving DecidableEq, Repr

/-- The record a fatal condition leaves in the fault status (R34). -/
structure FaultRecord where
  cause : Cause
  info : Nat
  /-- The address of the opcode byte of the instruction that raised it. -/
  faultPc : Nat
deriving DecidableEq, Repr

/-- The status the host reads (R8, R120). -/
inductive Status
  | running
  | halted
  | faulted (record : FaultRecord)
deriving DecidableEq, Repr

/-- Memory: (address, byte) pairs, addresses strictly rising, no entry equal to what an unlisted address reads as. -/
abbrev Memory := List Host.Cell

/-- The complete state of the core (R38). -/
structure State where
  /-- x[0]..x[7]; x[7] is SP (R20, R21). -/
  regs : Vector Byte 8
  /-- The program counter, unsigned, 0..258, not wrapped by the advance (R26, R27). -/
  pc : Nat
  /-- The flags register (R29). -/
  fl : Flags
  /-- The Running flag (R33). -/
  running : Bool
  /-- The fault status (R34). -/
  fault : Option FaultRecord
  /-- The 256 memory bytes (R35). -/
  mem : List Host.Cell
  /-- The output stream, oldest first (R36). -/
  out : List Byte
deriving DecidableEq, Repr

/-- Why a step is not enabled. The core's own fatal conditions are NOT here: they are recorded in `State.fault` by a next state
(R121, log entry 1). -/
inductive Fault
  /-- Raised by `step` in the Halted state: `running` is false, so no step exists (R120). Safe: nothing follows (log entry 2). -/
  | halted
  /-- Raised by `step` in the Faulted state: a fault record is held, so no step exists (R120, R150). It reports the record to the
  caller (R149). Safe: nothing follows (log entry 2). -/
  | faulted (record : FaultRecord)
deriving DecidableEq, Repr

/-- Why an instruction has no meaning. -/
inductive Refusal
  /-- Raised by an arm of `exec` whose instruction is not modelled yet. No arm does: every instruction has its meaning. Safe. -/
  | notModelled (mnemonic : String)
deriving DecidableEq, Repr

/-- The flags an `FL_RESET` value stands for (R31). -/
def flagsOf : FlReset → Flags
  | .allFalse => ⟨false, false, false⟩
  | .equal => ⟨true, false, false⟩
  | .less => ⟨false, true, false⟩
  | .greater => ⟨false, false, true⟩

/-- The state right after construction and loading, for every launch parameter: FL_RESET and the launch memory M0 (R39, R160). -/
def State.launch (fl : FlReset) (m0 : Memory) : State where
  regs := #v[0x00#8, 0x00#8, 0x00#8, 0x00#8, 0x00#8, 0x00#8, 0x00#8, Config.spReset]
  pc := Config.pcReset
  fl := flagsOf fl
  running := true
  fault := none
  mem := m0
  out := []

/-- The machine right after reset, nothing loaded: the launch state at the defaults R31 and R161 name (log entries 3, 4). -/
def State.reset : State := State.launch Config.flReset []

end Sys2Proof.Machine
end

