-- ==== Sys2Proof/Machine/Flags.lean ====
section
/-! DEFINITION. Every flag computation of the core: CMP's three flags (R83), their exclusion (R31), and the host's packed view (R32). -/

namespace Sys2Proof.Machine

/-- The flags CMP sets: unsigned comparison over raw byte values, exactly one flag true (R83). -/
def compareFlags (va vb : Byte) : Flags :=
  if va.toNat = vb.toNat then ⟨true, false, false⟩
  else if va.toNat < vb.toNat then ⟨false, true, false⟩
  else ⟨false, false, true⟩

/-- At most one flag is true (R31). -/
def Flags.exclusive (f : Flags) : Bool :=
  !(f.e && f.l) && !(f.e && f.g) && !(f.l && f.g)

/-- Exactly one flag is true, as after every CMP (R31, R83). -/
def Flags.exactlyOne (f : Flags) : Bool :=
  Flags.exclusive f && (f.e || f.l || f.g)

/-- The host's one-byte view 0b00000LGE: bit 2 = L, bit 1 = G, bit 0 = E (R32). No instruction observes it (log entry 11). -/
def Flags.toByte (f : Flags) : Byte :=
  BitVec.ofNat 8 (4 * f.l.toNat + 2 * f.g.toNat + f.e.toNat)

end Sys2Proof.Machine
end

