-- ==== Sys2Proof/Machine/Memory.lean ====
section
/-! DEFINITION. Memory as a list in one canonical form: its check, looking a byte up and storing one. -/

namespace Sys2Proof.Machine

/-- The byte at an address; an unlisted address reads as `Config.memFill` (R161, log entry 4). -/
def Memory.lookup : Memory → Nat → Byte
  | [], _ => Config.memFill
  | c :: m, a => if c.1 = a then c.2 else Memory.lookup m a

/-- Drop every entry of an address. -/
def Memory.erase (m : Memory) (a : Nat) : Memory :=
  m.filter fun c => c.1 != a

/-- Put an entry before the first entry of a higher address. -/
def Memory.insert : Memory → Nat → Byte → Memory
  | [], a, v => [(a, v)]
  | c :: m, a, v => if a < c.1 then (a, v) :: c :: m else c :: Memory.insert m a v

/-- Store a byte: storing what an unlisted address reads as removes the entry. -/
def Memory.store (m : Memory) (a : Nat) (v : Byte) : Memory :=
  if v = Config.memFill then Memory.erase m a else Memory.insert (Memory.erase m a) a v

/-- The addresses of a memory rise strictly and each is above `lo`, exclusive when `some`. -/
def Memory.rising : Option Nat → Memory → Bool
  | _, [] => true
  | none, c :: m => Memory.rising (some c.1) m
  | some lo, c :: m => lo < c.1 && Memory.rising (some c.1) m

/-- The canonical form: addresses strictly rising, every address in 0..255 (R35), no entry equal to what an unlisted address
reads as. -/
def Memory.wf (m : Memory) : Bool :=
  Memory.rising none m && m.all fun c => c.1 < Config.memSize && c.2 != Config.memFill

end Sys2Proof.Machine
end

