-- ==== Sys2Proof/Machine/Operands.lean ====
section
/-! DEFINITION. The operand forms of R64: a register index, checked by RegIdx, and the 8-bit immediate, which is the byte itself;
and the narrowing of an exact integer to a byte (R22). -/

namespace Sys2Proof.Machine

/-- `RegIdx(b)`: the register a byte 0..7 names; any other byte raises ILLEGAL_REGISTER with the byte (R10, R64, R142). -/
def regIdx (b : Byte) : Except Raise RegIndex :=
  if h : b.toNat < 8 then .ok ⟨b.toNat, h⟩ else .error ⟨.illegalRegister, b.toNat⟩

/-- The 8-bit immediate: the byte, unsigned and not extended (R64). -/
def immediate (v : Byte) : Byte := v

/-- The operand byte that names a register. -/
def regByte (i : RegIndex) : Byte := BitVec.ofNat 8 i.val

/-- An exact integer reduced modulo 256, as every register and memory write does (R22, R45). -/
def wrap (v : Int) : Byte := BitVec.ofInt 8 v

end Sys2Proof.Machine
end

