-- ==== Sys2Proof/Machine/Ops.lean ====
section
/-! DEFINITION. The named operations every meaning is written over: registers, memory, pc, output, the Running flag, the status,
and taking a fatal condition. -/

namespace Sys2Proof.Machine

/-- `x[i]` (R10, R20). -/
def State.reg (s : State) (i : RegIndex) : Byte := s.regs[i]

/-- `x[i] <- v`, v an exact integer stored modulo 256 (R10, R22). -/
def State.setReg (s : State) (i : RegIndex) (v : Int) : State :=
  { s with regs := s.regs.set i.val (wrap v) i.isLt }

/-- SP, which is x[7] (R21). -/
def State.sp (s : State) : Byte := s.reg Config.spIndex

/-- `x[7] <- v mod 256` (R95). -/
def State.setSp (s : State) (v : Int) : State := s.setReg Config.spIndex v

/-- The memory byte at an address, as the host's read-back sees it (R8). -/
def State.byteAt (s : State) (a : Nat) : Byte := Memory.lookup s.mem a

/-- `MemRead(a, 1)`: the byte at 0..255, otherwise MEM_BOUNDS with the address (R10, R47). -/
def State.memRead (s : State) (a : Nat) : Except Raise Byte :=
  if a < Config.memSize then .ok (s.byteAt a) else .error ⟨.memBounds, a⟩

/-- `M[a] <- v`, v an exact integer stored modulo 256, at an address of 0..255 (R45). -/
def State.storeByte (s : State) (a : Nat) (v : Int) : State :=
  { s with mem := Memory.store s.mem a (wrap v) }

/-- `MemWrite(a, 1, v)`: stores v mod 256 at 0..255, otherwise MEM_BOUNDS with the address (R10, R45, R47). -/
def State.memWrite (s : State) (a : Nat) (v : Int) : Except Raise State :=
  if a < Config.memSize then .ok (s.storeByte a v) else .error ⟨.memBounds, a⟩

/-- Store bytes at consecutive addresses of 0..255; a byte that would fall outside is dropped. -/
def placeBytes (s : State) (a : Nat) : List Byte → State
  | [] => s
  | b :: bs =>
    placeBytes (if a < Config.memSize then s.storeByte a b.toNat else s) (a + 1) bs

/-- `pc_next`: pc <- pc + 1 + n, computed without wrap (R11, R125). -/
def State.advance (s : State) (n : Nat) : State := { s with pc := s.pc + 1 + n }

/-- `pc <- target`, the target an 8-bit value (R103). -/
def State.jumpTo (s : State) (target : Byte) : State := { s with pc := target.toNat }

/-- `emit(v)`: append one output event (R10, R36). -/
def State.emit (s : State) (v : Byte) : State := { s with out := s.out ++ [v] }

/-- `halt`: running <- false (R11). -/
def State.halt (s : State) : State := { s with running := false }

/-- Taking a fatal condition, the one shared entry: record (cause, info, fault_pc) in the fault status and change nothing else
(R144, R149). There is no return from it: only a new construction leaves the Faulted state (R150). -/
def State.takeFault (s : State) (r : Raise) : State :=
  { s with fault := some ⟨r.cause, r.info, s.pc⟩ }

/-- One instruction's handler, run from state `s`: its result, or, on a raise, `s` itself with the fault recorded, so that every
write of the step is discarded (R121, R144). -/
def attempt (s : State) (body : Except Raise State) : Host.Outcome State Fault Refusal :=
  match body with
  | .ok t => .next t
  | .error r => .next (s.takeFault r)

/-- Whether the core can step (R120). -/
def State.status (s : State) : Status :=
  match s.fault with
  | some r => .faulted r
  | none => if s.running then .running else .halted

/-- The cause code of a fatal condition (R141). -/
def causeCode : Cause → Nat
  | .memBounds => 1
  | .illegalRegister => 2
  | .unsupportedAluOp => 3

/-- The fault status as its code; 0 is NONE (R141). -/
def State.faultCode (s : State) : Nat :=
  match s.fault with
  | some r => causeCode r.cause
  | none => 0

end Sys2Proof.Machine
end

