-- ==== Sys2Proof/Syntax.lean ====
section
/-! DEFINITION. The instructions of the LS-8 core as data: the 13 opcodes of R2, and one constructor of Instr for each row of
the opcode table, the fallback row of the unrecognized bytes among them (R65, R66). -/

namespace Sys2Proof

/-- The 13 opcodes in scope (R2). -/
inductive Opcode
  | hlt | ret | push | pop | prn | call | jmp | jeq | jne | ldi | add | mul | cmp
deriving DecidableEq, Repr

/-- The ALU's closed operation set (R84): with exactly these three constructors an unsupported operation cannot be asked for. -/
inductive AluOp
  | add | mul | cmp
deriving DecidableEq, Repr

/-- An instruction as decoded. A register operand is the RAW operand byte (R64): a byte of 8 or more is no encoding error but a
value that makes the instruction fault when it runs (R68, R142). -/
inductive Instr
  /-- `HLT` (R112). -/
  | hlt
  /-- `RET` (R93). -/
  | ret
  /-- `PUSH r` (R90). -/
  | push (r : Byte)
  /-- `POP r` (R91). -/
  | pop (r : Byte)
  /-- `PRN r` (R111). -/
  | prn (r : Byte)
  /-- `CALL r` (R92). -/
  | call (r : Byte)
  /-- `JMP r` (R100). -/
  | jmp (r : Byte)
  /-- `JEQ r` (R101). -/
  | jeq (r : Byte)
  /-- `JNE r` (R102). -/
  | jne (r : Byte)
  /-- `LDI r v` (R110). -/
  | ldi (r v : Byte)
  /-- `ADD a b` (R81). -/
  | add (a b : Byte)
  /-- `MUL a b` (R82). -/
  | mul (a b : Byte)
  /-- `CMP a b` (R83). -/
  | cmp (a b : Byte)
  /-- A byte that is none of the 13 opcodes: a complete 1-byte no-op (R66, R124). -/
  | unrecognized (op : Byte)
deriving DecidableEq, Repr

/-- The opcode an instruction carries; none for an unrecognized byte. -/
def Instr.opcode : Instr → Option Opcode
  | .hlt => some .hlt
  | .ret => some .ret
  | .push _ => some .push
  | .pop _ => some .pop
  | .prn _ => some .prn
  | .call _ => some .call
  | .jmp _ => some .jmp
  | .jeq _ => some .jeq
  | .jne _ => some .jne
  | .ldi _ _ => some .ldi
  | .add _ _ => some .add
  | .mul _ _ => some .mul
  | .cmp _ _ => some .cmp
  | .unrecognized _ => none

/-- The operand bytes of an instruction that name registers, in the order in which they are checked (R142, R148). -/
def Instr.regOperands : Instr → List Byte
  | .hlt => []
  | .ret => []
  | .push r => [r]
  | .pop r => [r]
  | .prn r => [r]
  | .call r => [r]
  | .jmp r => [r]
  | .jeq r => [r]
  | .jne r => [r]
  | .ldi r _ => [r]
  | .add a b => [a, b]
  | .mul a b => [a, b]
  | .cmp a b => [a, b]
  | .unrecognized _ => []

end Sys2Proof
end

