-- ==== Sys2Proof/Machine/Alu.lean ====
section
/-! DEFINITION. The ALU and its instructions ADD, MUL and CMP (40_alu.md). -/

namespace Sys2Proof.Machine

/-- The ALU on two registers: exact integer results, reduced modulo 256 by the register write; only CMP writes flags (R80, R85). -/
def State.alu (s : State) (op : AluOp) (ia ib : RegIndex) : State :=
  match op with
  | .add => s.setReg ia ((s.reg ia).toNat + (s.reg ib).toNat)
  | .mul => s.setReg ia ((s.reg ia).toNat * (s.reg ib).toNat)
  | .cmp => { s with fl := compareFlags (s.reg ia) (s.reg ib) }

/-- The shared shape of R81, R82 and R83: check both indices, a first (R148), let the ALU work, advance by 3. -/
def execAlu (op : AluOp) (a b : Byte) (s : State) : Host.Outcome State Fault Refusal :=
  attempt s do
    let ia ← regIdx a
    let ib ← regIdx b
    return (s.alu op ia ib).advance 2

/-- ADD a b (R81). -/
def execAdd (a b : Byte) (s : State) : Host.Outcome State Fault Refusal := execAlu .add a b s

/-- MUL a b (R82). -/
def execMul (a b : Byte) (s : State) : Host.Outcome State Fault Refusal := execAlu .mul a b s

/-- CMP a b (R83). -/
def execCmp (a b : Byte) (s : State) : Host.Outcome State Fault Refusal := execAlu .cmp a b s

end Sys2Proof.Machine
end

