-- ==== Sys2Proof/Machine/Branch.lean ====
section
/-! DEFINITION. The branch instructions JMP, JEQ and JNE (42_branch.md). Targets are register values, never checked (R103). -/

namespace Sys2Proof.Machine

/-- The shared shape of R100, R101 and R102: the index is checked whether or not the branch is taken; untaken advances by 2. -/
def execBranch (taken : Bool) (r : Byte) (s : State) : Host.Outcome State Fault Refusal :=
  attempt s do
    let ir ← regIdx r
    return if taken then s.jumpTo (s.reg ir) else s.advance 1

/-- JMP r (R100). -/
def execJmp (r : Byte) (s : State) : Host.Outcome State Fault Refusal := execBranch true r s

/-- JEQ r: taken if FL.E is set (R101). -/
def execJeq (r : Byte) (s : State) : Host.Outcome State Fault Refusal := execBranch s.fl.e r s

/-- JNE r: taken if FL.E is clear (R102). -/
def execJne (r : Byte) (s : State) : Host.Outcome State Fault Refusal := execBranch (!s.fl.e) r s

end Sys2Proof.Machine
end

