-- ==== Sys2Proof/Machine/Data.lean ====
section
/-! DEFINITION. LDI, PRN and HLT (43_data_halt.md), and the 1-byte no-op of an unrecognized opcode byte (R124). -/

namespace Sys2Proof.Machine

/-- LDI r v: the immediate is never checked (R110). -/
def execLdi (r v : Byte) (s : State) : Host.Outcome State Fault Refusal :=
  attempt s do
    let ir ← regIdx r
    return (s.setReg ir (immediate v).toNat).advance 2

/-- PRN r: one output event (R111). -/
def execPrn (r : Byte) (s : State) : Host.Outcome State Fault Refusal :=
  attempt s do
    let ir ← regIdx r
    return (s.emit (s.reg ir)).advance 1

/-- HLT: clear Running; the pc advances by 1 (R112). -/
def execHlt (s : State) : Host.Outcome State Fault Refusal :=
  attempt s do
    return s.halt.advance 0

/-- An unrecognized opcode byte: only pc <- pc + 1, whatever the byte (R124, R146). -/
def execUnrecognized (_op : Byte) (s : State) : Host.Outcome State Fault Refusal :=
  attempt s do
    return s.advance 0

end Sys2Proof.Machine
end

