-- ==== Sys2Proof/Machine/Stack.lean ====
section
/-! DEFINITION. The stack instructions PUSH, POP, CALL and RET (41_stack.md), each in the statement order of its rule, which fixes
the result when the operand is R7. -/

namespace Sys2Proof.Machine

/-- PUSH r: x[r] is read after the decrement (R90). -/
def execPush (r : Byte) (s : State) : Host.Outcome State Fault Refusal :=
  attempt s do
    let ir ← regIdx r
    let t := s.setSp (s.sp.toNat - 1)
    let u ← t.memWrite t.sp.toNat (t.reg ir).toNat
    return u.advance 1

/-- POP r: x[7] is read for the increment after x[r] is written (R91). -/
def execPop (r : Byte) (s : State) : Host.Outcome State Fault Refusal :=
  attempt s do
    let ir ← regIdx r
    let v ← s.memRead s.sp.toNat
    let t := s.setReg ir v.toNat
    return (t.setSp (t.sp.toNat + 1)).advance 1

/-- CALL r: the return address is pc + 2, stored modulo 256; the target is read after the decrement (R92). -/
def execCall (r : Byte) (s : State) : Host.Outcome State Fault Refusal :=
  attempt s do
    let ir ← regIdx r
    let ret := s.pc + 2
    let t := s.setSp (s.sp.toNat - 1)
    let u ← t.memWrite t.sp.toNat ret
    return u.jumpTo (u.reg ir)

/-- RET (R93). -/
def execRet (s : State) : Host.Outcome State Fault Refusal :=
  attempt s do
    let t ← s.memRead s.sp.toNat
    return (s.setSp (s.sp.toNat + 1)).jumpTo t

end Sys2Proof.Machine
end

