-- ==== Sys2Proof/WellFormed.lean ====
section
/-! DEFINITION. Two checks on an instruction. wellFormed: its words exist (an unrecognized byte is none of the 13 opcodes).
registersInRange: every register operand byte names a register, so that it raises no ILLEGAL_REGISTER. -/

namespace Sys2Proof

/-- The 243 unrecognized byte values, in the ranges R66 lists. -/
def unrecognizedByte (b : Byte) : Bool :=
  let n := b.toNat
  n == 0x00 || (0x02 ≤ n && n ≤ 0x10) || (0x12 ≤ n && n ≤ 0x44) || (0x48 ≤ n && n ≤ 0x4F) || (0x51 ≤ n && n ≤ 0x53)
    || (0x57 ≤ n && n ≤ 0x81) || (0x83 ≤ n && n ≤ 0x9F) || n == 0xA1 || (0xA3 ≤ n && n ≤ 0xA6) || 0xA8 ≤ n

/-- An instruction some bytes decode to. Operand bytes are whole 8-bit values, none reserved (R64, R68), so the only check is
that an unrecognized byte is one of the 243 of R66. -/
def Instr.wellFormed : Instr → Bool
  | .hlt => true
  | .ret => true
  | .push _ => true
  | .pop _ => true
  | .prn _ => true
  | .call _ => true
  | .jmp _ => true
  | .jeq _ => true
  | .jne _ => true
  | .ldi _ _ => true
  | .add _ _ => true
  | .mul _ _ => true
  | .cmp _ _ => true
  | .unrecognized op => unrecognizedByte op

/-- Every operand byte that names a register is 0..7 (R64, R142). -/
def Instr.registersInRange (i : Instr) : Bool :=
  i.regOperands.all fun b => b.toNat < 8

end Sys2Proof
end

