-- ==== Sys2Proof/Decode.lean ====
section
/-! DEFINITION. The decoder and, after it, the encoder. Both read the one opcode map of R65. Decoding is a lookup on the whole
opcode byte (R61, R123) and reads exactly the operand bytes the opcode has (R126). -/

namespace Sys2Proof

/-- The opcode map's byte of each opcode (R65). -/
def Opcode.byte : Opcode → Byte
  | .hlt => 0b00000001#8
  | .ret => 0b00010001#8
  | .push => 0b01000101#8
  | .pop => 0b01000110#8
  | .prn => 0b01000111#8
  | .call => 0b01010000#8
  | .jmp => 0b01010100#8
  | .jeq => 0b01010101#8
  | .jne => 0b01010110#8
  | .ldi => 0b10000010#8
  | .add => 0b10100000#8
  | .mul => 0b10100010#8
  | .cmp => 0b10100111#8

/-- The opcode map's operand count of each opcode (R65, R123). -/
def Opcode.operandCount : Opcode → Nat
  | .hlt => 0
  | .ret => 0
  | .push => 1
  | .pop => 1
  | .prn => 1
  | .call => 1
  | .jmp => 1
  | .jeq => 1
  | .jne => 1
  | .ldi => 2
  | .add => 2
  | .mul => 2
  | .cmp => 2

/-- The opcode map's rows, in the order of R65. -/
def Opcode.all : List Opcode :=
  [.hlt, .ret, .push, .pop, .prn, .call, .jmp, .jeq, .jne, .ldi, .add, .mul, .cmp]

/-- The whole-byte lookup: all 8 bits are compared against the 13 values, and a byte equal to none of them is unrecognized,
whatever its high bits are (R61). -/
def Opcode.ofByte? (b : Byte) : Option Opcode :=
  Opcode.all.find? fun o => o.byte == b

/-- The operand count decode derives from an opcode byte alone; 0 for an unrecognized byte (R69, R123). -/
def operandCountOf (b : Byte) : Nat :=
  match Opcode.ofByte? b with
  | some o => o.operandCount
  | none => 0

/-- An instruction's length in bytes (R69). -/
def Instr.length (i : Instr) : Nat :=
  match i.opcode with
  | some o => 1 + o.operandCount
  | none => 1

/-- Why a list of bytes holds no whole instruction. No byte VALUE is ever rejected (R68). -/
inductive DecodeError
  /-- The list ends before byte `k` of the instruction (0 the opcode, 1 and 2 the operands). Raised by `decode` only. -/
  | missingByte (k : Nat)
deriving DecidableEq, Repr

/-- A 1-operand instruction: read the operand byte at offset 1 (R126). -/
def oneOperand {ε : Type} (fetch : Nat → Except ε Byte) (k : Byte → Instr) : Except ε Instr := do
  let r ← fetch 1
  return k r

/-- A 2-operand instruction: read the operand bytes at offset 1, then 2 (R126). -/
def twoOperands {ε : Type} (fetch : Nat → Except ε Byte) (k : Byte → Byte → Instr) : Except ε Instr := do
  let a ← fetch 1
  let b ← fetch 2
  return k a b

/-- The instruction of a recognized opcode, its operand bytes read from `fetch` (R67, R123). -/
def decodeOperands {ε : Type} (fetch : Nat → Except ε Byte) : Opcode → Except ε Instr
  | .hlt => .ok .hlt
  | .ret => .ok .ret
  | .push => oneOperand fetch .push
  | .pop => oneOperand fetch .pop
  | .prn => oneOperand fetch .prn
  | .call => oneOperand fetch .call
  | .jmp => oneOperand fetch .jmp
  | .jeq => oneOperand fetch .jeq
  | .jne => oneOperand fetch .jne
  | .ldi => twoOperands fetch .ldi
  | .add => twoOperands fetch .add
  | .mul => twoOperands fetch .mul
  | .cmp => twoOperands fetch .cmp

/-- Decoding, over any source of bytes: `fetch k` gives byte `k` of the instruction or says why it cannot. The opcode byte is
read first, then exactly the opcode's own operand bytes in ascending order, none for an unrecognized byte (R121, R126). -/
def decodeFrom {ε : Type} (fetch : Nat → Except ε Byte) : Except ε Instr := do
  let op ← fetch 0
  match Opcode.ofByte? op with
  | some o => decodeOperands fetch o
  | none => return .unrecognized op

/-- Byte `k` of a list of bytes. -/
def listByte (bytes : List Byte) (k : Nat) : Except DecodeError Byte :=
  match bytes[k]? with
  | some b => .ok b
  | none => .error (.missingByte k)

/-- The decoder: the first instruction of a list of bytes, and the bytes after it. -/
def decode (bytes : List Byte) : Except DecodeError (Instr × List Byte) :=
  match decodeFrom (listByte bytes) with
  | .ok i => .ok (i, bytes.drop i.length)
  | .error e => .error e

/-- The encoder: opcode byte, then the operand bytes in encoding order (R67, R70). -/
def encode : Instr → List Byte
  | .hlt => [Opcode.hlt.byte]
  | .ret => [Opcode.ret.byte]
  | .push r => [Opcode.push.byte, r]
  | .pop r => [Opcode.pop.byte, r]
  | .prn r => [Opcode.prn.byte, r]
  | .call r => [Opcode.call.byte, r]
  | .jmp r => [Opcode.jmp.byte, r]
  | .jeq r => [Opcode.jeq.byte, r]
  | .jne r => [Opcode.jne.byte, r]
  | .ldi r v => [Opcode.ldi.byte, r, v]
  | .add a b => [Opcode.add.byte, a, b]
  | .mul a b => [Opcode.mul.byte, a, b]
  | .cmp a b => [Opcode.cmp.byte, a, b]
  | .unrecognized op => [op]

/-- The bytes of a table word of `nbits` bits as the core stores them: byte `k` is bits 8k+7..8k, up to the longest instruction,
and every bit from `nbits` up is 0. -/
def tableWordBytes (nbits w : Nat) : List Byte :=
  (List.range Config.maxLength).map fun k => BitVec.ofNat 8 (w % 2 ^ nbits / 2 ^ (8 * k))

/-- The instruction the decoder reads from a table word. -/
def decodeTableWord (nbits w : Nat) : Option Instr :=
  match decode (tableWordBytes nbits w) with
  | .ok (i, _) => some i
  | .error _ => none

end Sys2Proof
end

