-- ==== Sys2Proof/Machine/Fetch.lean ====
section
/-! DEFINITION. Fetching and decoding the instruction at the pc, and the bytes of memory from the pc on. -/

namespace Sys2Proof.Machine

/-- `Fetch(pc + k)`: byte `k` of the instruction at the pc (R122, R126). -/
def State.fetchByte (s : State) (k : Nat) : Except Raise Byte := s.memRead (s.pc + k)

/-- The instruction at the pc: the decoder over the bytes at pc, pc+1, pc+2, read as far as the opcode asks (R60, R121). -/
def State.fetchInstr (s : State) : Except Raise Instr := decodeFrom s.fetchByte

/-- The bytes of memory from the pc to address 255, in ascending order (R60). -/
def State.codeBytes (s : State) : List Byte :=
  (List.range (Config.memSize - s.pc)).map fun k => s.byteAt (s.pc + k)

end Sys2Proof.Machine
end

