-- ==== Sys2Proof/Machine/Step.lean ====
section
/-! DEFINITION. One step of the dispatch loop (R120, R121), and placing an instruction where the next step fetches it. -/

namespace Sys2Proof.Machine

/-- One step: while Running, fetch, decode and run one instruction, a raise of the fetch being taken as a fatal condition
(R121, R143); in the Halted and Faulted states no step is enabled (R120). -/
def step (s : State) : Host.Outcome State Fault Refusal :=
  match s.status with
  | .running =>
    match s.fetchInstr with
    | .ok i => exec i s
    | .error r => .next (s.takeFault r)
  | .halted => .fault .halted
  | .faulted r => .fault (.faulted r)

/-- `s` with the table word's bytes stored at the pc, where the next step fetches. From reset it stands for the loader, which
writes a program at address 0 before run() (R131; log entry 12). -/
def State.withFetchWord (s : State) (nbits w : Nat) : State :=
  placeBytes s s.pc (tableWordBytes nbits w)

end Sys2Proof.Machine
end

