-- ==== Sys2Proof/Machine/Launch.lean ====
section
/-! DEFINITION. The host's interface points outside a run: construct and load before run(), and the output sink's rendering
(R8, R131, R132, R163). -/

namespace Sys2Proof.Machine

/-- The load port: the image's values are written at LOAD_BASE and up, in order, each stored modulo 256; an image of more than 256
bytes is a load-time failure, and nothing runs (R45, R131, R159). Only before run() (R132). -/
def State.load (s : State) (image : List Nat) : Option State :=
  if image.length ≤ Config.memSize then some (placeBytes s Config.loadBase (image.map fun (n : Nat) => wrap n)) else none

/-- The boot order of R163: construct with FL_RESET and the memory the loader does not write, then load. -/
def boot (fl : FlReset) (unloaded : Memory) (image : List Nat) : Option State :=
  (State.launch fl unloaded).load image

/-- The sink's rendering of the output stream: each value as a decimal line (R111). The host's, not the core's. -/
def sinkText (out : List Byte) : String :=
  out.foldl (fun text v => text ++ toString v.toNat ++ "\n") ""

end Sys2Proof.Machine
end

