-- ==== Sys2Proof/Safety.lean ====
section
/-! DEFINITION. The terms claims are stated in: the states the core can reach hold Inv; which fault records are legal; runs of
instructions and of steps; balanced stack code. -/

namespace Sys2Proof.Machine

/-- The core can step (R120). -/
def State.isRunning (s : State) : Prop := s.status = .running

/-- A fault record R141 allows, held in a state whose pc is `pc`: MEM_BOUNDS with an address 256..258, ILLEGAL_REGISTER with a byte
8..255, never UNSUPPORTED_ALU_OP (R145); and the pc still at the faulting instruction (R144). -/
def FaultRecord.legal (r : FaultRecord) (pc : Nat) : Bool :=
  r.faultPc == pc &&
    match r.cause with
    | .memBounds => 256 ≤ r.info && r.info ≤ 258
    | .illegalRegister => 8 ≤ r.info && r.info ≤ 255
    | .unsupportedAluOp => false

/-- What every reachable state satisfies: pc 0..258 (R27), flags mutually exclusive (R31), memory canonical over 0..255 (R35), any
fault record legal (R141, R144). -/
def State.Inv (s : State) : Prop :=
  s.pc ≤ 258 ∧ s.fl.exclusive = true ∧ Memory.wf s.mem = true ∧ ∀ r, s.fault = some r → r.legal s.pc = true

/-- Instructions run one after another by `exec`, stopping at the first that gives no next state. -/
def execAll : List Instr → State → Host.Outcome State Fault Refusal
  | [], s => .next s
  | i :: is, s =>
    match exec i s with
    | .next t => execAll is t
    | .fault r => .fault r
    | .refused r => .refused r

/-- Stack code in which every PUSH of a register is matched by a POP of the same register, in LIFO order (R94): a PUSH, balanced
code, the matching POP, then more balanced code. -/
inductive Balanced
  | done
  | around (i : RegIndex) (inner after : Balanced)
deriving DecidableEq, Repr

/-- The instructions of balanced stack code. -/
def Balanced.code : Balanced → List Instr
  | .done => []
  | .around i inner after =>
    .push (regByte i) :: (Balanced.code inner ++ .pop (regByte i) :: Balanced.code after)

/-- The most bytes balanced stack code holds on the stack at once. -/
def Balanced.depth : Balanced → Nat
  | .done => 0
  | .around _ inner after => max (Balanced.depth inner + 1) (Balanced.depth after)

/-- Registers an instruction reads or writes, by R24: the register operands, and x[7] for PUSH, POP, CALL and RET. -/
def usesRegister (i : Instr) (k : RegIndex) : Bool :=
  i.regOperands.contains (regByte k) ||
    (k == Config.spIndex &&
      match i.opcode with
      | some .push => true
      | some .pop => true
      | some .call => true
      | some .ret => true
      | _ => false)

end Sys2Proof.Machine
end

