-- ==== Sys2Proof/Certificates/Slice0/Obligations.lean ====
section
/-! DEFINITION. The statements about the LS-8 core, for the provers. Legal register operands are written regByte i, which is every
byte 0..7; bytes of 8 or more have their own statement (IllegalRegisterByteFaultsWithoutEffect). -/

open Sys2Proof Sys2Proof.Machine

/-! ### Encoding -/

/-- R65: the opcode map, row by row: byte, operand count, bits 7..6, bit 5, bit 4, bits 3..0; an instruction's encoding starts with
its opcode's byte, is 1 + count bytes long, and has the register operands of its format; no other byte is an opcode. -/
def Obligations.OpcodeMapIsTheSpecTable : Prop :=
  (Opcode.all.map fun o =>
      (o, o.byte.toNat, o.operandCount, o.byte.toNat / 64, o.byte.toNat / 32 % 2, o.byte.toNat / 16 % 2, o.byte.toNat % 16)) =
    [(.hlt, 0x01, 0, 0, 0, 0, 0b0001), (.ret, 0x11, 0, 0, 0, 1, 0b0001), (.push, 0x45, 1, 1, 0, 0, 0b0101),
      (.pop, 0x46, 1, 1, 0, 0, 0b0110), (.prn, 0x47, 1, 1, 0, 0, 0b0111), (.call, 0x50, 1, 1, 0, 1, 0b0000),
      (.jmp, 0x54, 1, 1, 0, 1, 0b0100), (.jeq, 0x55, 1, 1, 0, 1, 0b0101), (.jne, 0x56, 1, 1, 0, 1, 0b0110),
      (.ldi, 0x82, 2, 2, 0, 0, 0b0010), (.add, 0xA0, 2, 2, 1, 0, 0b0000), (.mul, 0xA2, 2, 2, 1, 0, 0b0010),
      (.cmp, 0xA7, 2, 2, 1, 0, 0b0111)] ∧
  (∀ o : Opcode, o ∈ Opcode.all) ∧
  (∀ (i : Instr) (o : Opcode), i.opcode = some o →
    (encode i).head? = some o.byte ∧ (encode i).length = 1 + o.operandCount ∧
      i.regOperands.length = if o = .ldi then 1 else o.operandCount) ∧
  ∀ b : Byte, (∃ o : Opcode, o.byte = b) ↔
    b.toNat ∈ [0x01, 0x11, 0x45, 0x46, 0x47, 0x50, 0x54, 0x55, 0x56, 0x82, 0xA0, 0xA2, 0xA7]

/-- R61, R123: decoding is a lookup on the whole opcode byte: it alone fixes the instruction and the operand count (0 for a byte
that is none of the 13, whatever its high bits), and decoding succeeds exactly when that many operand bytes follow. -/
def Obligations.DecodeLooksUpTheWholeOpcodeByte : Prop :=
  (∀ o : Opcode, operandCountOf o.byte =
    match o with
    | .hlt | .ret => 0
    | .push | .pop | .prn | .call | .jmp | .jeq | .jne => 1
    | .ldi | .add | .mul | .cmp => 2) ∧
  (∀ (op : Byte) (rest : List Byte), (∀ o : Opcode, op ≠ o.byte) →
    operandCountOf op = 0 ∧ decode (op :: rest) = .ok (.unrecognized op, rest)) ∧
  (∀ (o : Opcode) (rest : List Byte), o.operandCount ≤ rest.length →
    ∃ i, i.opcode = some o ∧ decode (o.byte :: rest) = .ok (i, rest.drop o.operandCount)) ∧
  ∀ (o : Opcode) (rest : List Byte), rest.length < o.operandCount →
    decode (o.byte :: rest) = .error (.missingByte (1 + rest.length))

/-- R67: the byte layout of each format, and which operand bytes are register indices. -/
def Obligations.FormatsLayOutTheirBytes : Prop :=
  ∀ (r v a b op : Byte),
    (encode .hlt = [0x01#8] ∧ encode .ret = [0x11#8]) ∧
    (encode (.push r) = [0x45#8, r] ∧ encode (.pop r) = [0x46#8, r] ∧ encode (.prn r) = [0x47#8, r] ∧
      encode (.call r) = [0x50#8, r] ∧ encode (.jmp r) = [0x54#8, r] ∧ encode (.jeq r) = [0x55#8, r] ∧
      encode (.jne r) = [0x56#8, r]) ∧
    (encode (.add a b) = [0xA0#8, a, b] ∧ encode (.mul a b) = [0xA2#8, a, b] ∧ encode (.cmp a b) = [0xA7#8, a, b]) ∧
    encode (.ldi r v) = [0x82#8, r, v] ∧ encode (.unrecognized op) = [op] ∧
    (∀ i : Instr, i.regOperands =
      match i with
      | .hlt | .ret | .unrecognized _ => []
      | .push r | .pop r | .prn r | .call r | .jmp r | .jeq r | .jne r => [r]
      | .add a b | .mul a b | .cmp a b => [a, b]
      | .ldi r _ => [r])

/-- Example words, one for each row, decode to the instructions they stand for. The byte values are those of the opcode map; that a
word of 16 or 24 bits has its first byte in bits 7..0, the byte at the lowest address, is the model's reading of a table word
(DEDUCED, log entry 12). -/
def Obligations.SpecWordsDecode : Prop :=
  decodeTableWord 8 0b00000001 = some .hlt ∧ decodeTableWord 8 0b00010001 = some .ret ∧
  decodeTableWord 16 0x0345 = some (.push 3#8) ∧ decodeTableWord 16 0x0746 = some (.pop 7#8) ∧
  decodeTableWord 16 0x1047 = some (.prn 0x10#8) ∧ decodeTableWord 16 0x0550 = some (.call 5#8) ∧
  decodeTableWord 16 0x0454 = some (.jmp 4#8) ∧ decodeTableWord 16 0x0655 = some (.jeq 6#8) ∧
  decodeTableWord 16 0x0256 = some (.jne 2#8) ∧ decodeTableWord 24 0xFF0382 = some (.ldi 3#8 0xFF#8) ∧
  decodeTableWord 24 0x0100A0 = some (.add 0#8 1#8) ∧ decodeTableWord 24 0x0302A2 = some (.mul 2#8 3#8) ∧
  decodeTableWord 24 0x0200A7 = some (.cmp 0#8 2#8) ∧ decodeTableWord 8 0x4F = some (.unrecognized 0x4F#8)

/-- Headline: the decoder drops no bit of any encoding: every well-formed instruction, with every operand value, comes back from
its own bytes, whatever follows them. -/
def Obligations.DecodeOfEncodeIsTheInstruction : Prop :=
  ∀ (i : Instr) (rest : List Byte), i.wellFormed = true → decode (encode i ++ rest) = .ok (i, rest)

/-- The other direction: what decodes is well formed, and its encoding is exactly the bytes read. -/
def Obligations.EncodeOfDecodeIsTheBytes : Prop :=
  ∀ (bytes rest : List Byte) (i : Instr), decode bytes = .ok (i, rest) → i.wellFormed = true ∧ encode i ++ rest = bytes

/-! ### Fetch and step -/

/-- R60: an instruction is its opcode byte and 0, 1 or 2 operand bytes, the bytes of memory from the pc on, in order. -/
def Obligations.FetchReadsConsecutiveCells : Prop :=
  ∀ (s : State) (i : Instr), s.fetchInstr = .ok i →
    encode i = (List.range (encode i).length).map (fun k => s.byteAt (s.pc + k)) ∧
      1 ≤ (encode i).length ∧ (encode i).length ≤ 3

/-- 44_dispatch.md section 1: when the bytes of memory from the pc on decode to an instruction, a step of the Running core is that
instruction's effect, with nothing added around it. -/
def Obligations.StepRunsTheDecodedInstruction : Prop :=
  ∀ (s : State) (i : Instr) (rest : List Byte),
    s.status = .running → decode s.codeBytes = .ok (i, rest) → step s = exec i s

/-- The fetch of an instruction that lies wholly in memory completes: only as many bytes as the opcode asks for are read, so a
1-byte instruction at 255 runs (the spec's own D10). -/
def Obligations.FetchInsideMemoryCompletes : Prop :=
  ∀ s : State, s.pc + operandCountOf (s.byteAt s.pc) ≤ 255 →
    ∃ i, s.fetchInstr = .ok i ∧ i.length = 1 + operandCountOf (s.byteAt s.pc)

/-- The three fetches that can leave memory record MEM_BOUNDS, whatever the operand bytes are, and change nothing else (the spec's
own D1, D7, D9, D10; that the record is left in a next state is log entry 1). -/
def Obligations.FetchPastMemoryEndRecordsMemBounds : Prop :=
  ∀ s : State, s.status = .running →
    (256 ≤ s.pc → step s = .next { s with fault := some ⟨.memBounds, s.pc, s.pc⟩ }) ∧
    (s.pc = 255 → 1 ≤ operandCountOf (s.byteAt 255) → step s = .next { s with fault := some ⟨.memBounds, 256, 255⟩ }) ∧
    (s.pc = 254 → operandCountOf (s.byteAt 254) = 2 → step s = .next { s with fault := some ⟨.memBounds, 256, 254⟩ })

/-- Exactly one step is enabled while Running, none in the Halted and Faulted states (44_dispatch.md section 1; the Faulted state is
the spec's own D7, how the model reports it is log entries 1 and 2). -/
def Obligations.OnlyRunningStatesStep : Prop :=
  ∀ s : State,
    (s.running = true → s.fault = none → ∃ t, step s = .next t) ∧
    (s.running = false → s.fault = none → step s = .fault .halted) ∧
    ∀ r, s.fault = some r → step s = .fault (.faulted r)

/-! ### What each instruction does (its completion, its result and its whole next state) -/

/-- ADD (40_alu.md section 2): the sum modulo 256 into the first register, no flag, pc + 3. -/
def Obligations.AddStoresTheSumModulo256 : Prop :=
  ∀ (s : State) (i j : RegIndex),
    exec (.add (regByte i) (regByte j)) s =
      .next { s with
        regs := s.regs.set i.val (BitVec.ofNat 8 (((s.reg i).toNat + (s.reg j).toNat) % 256)) i.isLt
        pc := s.pc + 3 }

/-- MUL (40_alu.md section 2): the low byte of the unsigned product into the first register, no flag, pc + 3. -/
def Obligations.MulStoresTheProductModulo256 : Prop :=
  ∀ (s : State) (i j : RegIndex),
    exec (.mul (regByte i) (regByte j)) s =
      .next { s with
        regs := s.regs.set i.val (BitVec.ofNat 8 (((s.reg i).toNat * (s.reg j).toNat) % 256)) i.isLt
        pc := s.pc + 3 }

/-- CMP (40_alu.md section 2): exactly one flag, by unsigned comparison, whatever FL held before; nothing else but pc + 3. -/
def Obligations.CmpSetsExactlyOneFlag : Prop :=
  ∀ (s : State) (i j : RegIndex), ∃ f : Flags,
    exec (.cmp (regByte i) (regByte j)) s = .next { s with fl := f, pc := s.pc + 3 } ∧
    (f.e = true ↔ (s.reg i).toNat = (s.reg j).toNat) ∧
    (f.l = true ↔ (s.reg i).toNat < (s.reg j).toNat) ∧
    (f.g = true ↔ (s.reg j).toNat < (s.reg i).toNat)

/-- PUSH (41_stack.md): SP moves down by 1 modulo 256 and the register, read after that (the spec's own D11), is stored there. -/
def Obligations.PushStoresBelowTheStackPointer : Prop :=
  ∀ (s : State) (i : RegIndex) (a : Nat), a = (s.sp.toNat + 255) % 256 →
    ∃ t, exec (.push (regByte i)) s = .next t ∧
      t.regs = s.regs.set 7 (BitVec.ofNat 8 a) ∧
      t.byteAt a = (if i = 7 then BitVec.ofNat 8 a else s.reg i) ∧
      (∀ b, b ≠ a → t.byteAt b = s.byteAt b) ∧
      t.pc = s.pc + 2 ∧ t.fl = s.fl ∧ t.running = s.running ∧ t.fault = s.fault ∧ t.out = s.out

/-- POP (41_stack.md): the byte at SP goes to the register and SP moves up by 1 modulo 256, computed after that write (the spec's
own D11), so POP R7 leaves the popped byte plus 1 in SP; memory is not changed. -/
def Obligations.PopLoadsTheByteAtTheStackPointer : Prop :=
  ∀ (s : State) (i : RegIndex) (v : Byte), v = s.byteAt s.sp.toNat →
    exec (.pop (regByte i)) s =
      .next { s with
        regs :=
          if i = 7 then s.regs.set 7 (BitVec.ofNat 8 ((v.toNat + 1) % 256))
          else (s.regs.set i.val v i.isLt).set 7 (BitVec.ofNat 8 ((s.sp.toNat + 1) % 256))
        pc := s.pc + 2 }

/-- CALL (41_stack.md): SP moves down, (pc + 2) mod 256 is stored there (the spec's own D12), and the pc becomes the register read
after the decrement (the spec's own D11). -/
def Obligations.CallStoresTheReturnAddressAndJumps : Prop :=
  ∀ (s : State) (i : RegIndex) (a : Nat), a = (s.sp.toNat + 255) % 256 →
    ∃ t, exec (.call (regByte i)) s = .next t ∧
      t.regs = s.regs.set 7 (BitVec.ofNat 8 a) ∧
      t.byteAt a = BitVec.ofNat 8 ((s.pc + 2) % 256) ∧
      (∀ b, b ≠ a → t.byteAt b = s.byteAt b) ∧
      t.pc = (if i = 7 then a else (s.reg i).toNat) ∧
      t.fl = s.fl ∧ t.running = s.running ∧ t.fault = s.fault ∧ t.out = s.out

/-- R93: RET, the byte 0x11, takes the byte at SP as the pc, whoever wrote it, and moves SP up by 1 modulo 256; no flag, no fault. -/
def Obligations.RetPopsThePc : Prop :=
  encode .ret = [0x11#8] ∧ ∀ s : State,
    exec .ret s =
      .next { s with
        regs := s.regs.set 7 (BitVec.ofNat 8 ((s.sp.toNat + 1) % 256))
        pc := (s.byteAt s.sp.toNat).toNat }

/-- JMP (42_branch.md): the pc becomes the register's value, any of 0..255, and nothing else changes. -/
def Obligations.JmpSetsThePcToTheRegister : Prop :=
  ∀ (s : State) (i : RegIndex), exec (.jmp (regByte i)) s = .next { s with pc := (s.reg i).toNat }

/-- JEQ (42_branch.md): the pc becomes the register's value if E is set, pc + 2 otherwise; nothing else changes. -/
def Obligations.JeqJumpsOnlyIfEqualIsSet : Prop :=
  ∀ (s : State) (i : RegIndex),
    (s.fl.e = true → exec (.jeq (regByte i)) s = .next { s with pc := (s.reg i).toNat }) ∧
    (s.fl.e = false → exec (.jeq (regByte i)) s = .next { s with pc := s.pc + 2 })

/-- JNE (42_branch.md): the pc becomes the register's value if E is clear, pc + 2 otherwise; nothing else changes. -/
def Obligations.JneJumpsOnlyIfEqualIsClear : Prop :=
  ∀ (s : State) (i : RegIndex),
    (s.fl.e = false → exec (.jne (regByte i)) s = .next { s with pc := (s.reg i).toNat }) ∧
    (s.fl.e = true → exec (.jne (regByte i)) s = .next { s with pc := s.pc + 2 })

/-- LDI (43_data_halt.md): the immediate byte, any of 0..255, goes to the register unchanged; pc + 3. -/
def Obligations.LdiLoadsTheImmediate : Prop :=
  ∀ (s : State) (i : RegIndex) (v : Byte),
    exec (.ldi (regByte i) v) s = .next { s with regs := s.regs.set i.val v i.isLt, pc := s.pc + 3 }

/-- PRN (43_data_halt.md): one output event with the register's 8-bit value; pc + 2, nothing else. -/
def Obligations.PrnEmitsTheRegister : Prop :=
  ∀ (s : State) (i : RegIndex),
    exec (.prn (regByte i)) s = .next { s with out := s.out ++ [s.reg i], pc := s.pc + 2 }

/-- HLT (43_data_halt.md; pc + 1 is the spec's own D19, log entry 15): Running is cleared, and no step follows, whatever the bytes
in memory are. That a step which does not exist is answered by the outcome halted is the model's choice (DEDUCED, log entry 2). -/
def Obligations.HltStopsTheMachine : Prop :=
  ∀ s : State,
    exec .hlt s = .next { s with running := false, pc := s.pc + 1 } ∧
    ∀ t : State, exec .hlt s = .next t → t.fault = none → ∀ m : Memory, step { t with mem := m } = .fault .halted

/-- R124, R146: an unrecognized opcode byte only advances the pc by 1 and is no fault; this holds at every address, 255 among them,
so no operand byte is read. -/
def Obligations.UnrecognizedByteOnlyAdvancesThePc : Prop :=
  (∀ (s : State) (op : Byte), exec (.unrecognized op) s = .next { s with pc := s.pc + 1 }) ∧
  ∀ s : State, s.status = .running → s.pc ≤ 255 → (∀ o : Opcode, s.byteAt s.pc ≠ o.byte) →
    step s = .next { s with pc := s.pc + 1 }

/-- ILLEGAL_REGISTER: the first operand byte of 8 or more that names a register is recorded with the instruction's address, whether
or not a branch would be taken, in a next state in which nothing else changes (the spec's own D2, D7, D9; log entry 1). -/
def Obligations.IllegalRegisterByteFaultsWithoutEffect : Prop :=
  ∀ (s : State) (i : Instr) (b : Byte), (i.regOperands.find? fun c => decide (8 ≤ c.toNat)) = some b →
    exec i s = .next { s with fault := some ⟨.illegalRegister, b.toNat, s.pc⟩ }

/-- An instruction whose register operands are all 0..7 runs to completion from every state and records no fault: no privilege, no
alignment, no stack check (60_exceptions.md sections 1 and 5; the spec's own D4, D17). -/
def Obligations.LegalInstructionsNeverFault : Prop :=
  ∀ (s : State) (i : Instr), i.registersInRange = true → ∃ t, exec i s = .next t ∧ t.fault = s.fault

/-! ### Frames (every operand form, illegal ones among them) -/

/-- What ADD, MUL and LDI leave unchanged: every register but the destination, all flags, Running, output, memory; the fault status
unless a register operand is illegal. -/
def Obligations.ArithmeticAndLoadImmediateFrame : Prop :=
  ∀ (s t : State) (d x : Byte) (i : Instr), i = .add d x ∨ i = .mul d x ∨ i = .ldi d x → exec i s = .next t →
    (∀ k, regByte k ≠ d → t.reg k = s.reg k) ∧ t.fl = s.fl ∧ t.running = s.running ∧ t.out = s.out ∧
      (∀ a, t.byteAt a = s.byteAt a) ∧ (i.registersInRange = true → t.fault = s.fault)

/-- What CMP leaves unchanged: everything but the flags and the pc; the fault status unless a register operand is illegal. -/
def Obligations.CompareFrame : Prop :=
  ∀ (s t : State) (a b : Byte), exec (.cmp a b) s = .next t →
    (∀ k, t.reg k = s.reg k) ∧ t.running = s.running ∧ t.out = s.out ∧
      (∀ c, t.byteAt c = s.byteAt c) ∧ ((Instr.cmp a b).registersInRange = true → t.fault = s.fault)

/-- What PUSH and CALL leave unchanged: every register but SP, all flags, Running, output, every byte of memory but the one at the
decremented SP; the fault status unless the register operand is illegal. -/
def Obligations.PushAndCallFrame : Prop :=
  ∀ (s t : State) (r : Byte) (i : Instr), i = .push r ∨ i = .call r → exec i s = .next t →
    (∀ k, k ≠ Config.spIndex → t.reg k = s.reg k) ∧ t.fl = s.fl ∧ t.running = s.running ∧ t.out = s.out ∧
      (∀ a, a ≠ (wrap (s.sp.toNat - 1)).toNat → t.byteAt a = s.byteAt a) ∧
      (i.registersInRange = true → t.fault = s.fault)

/-- What POP and RET leave unchanged: every register but SP and POP's destination, all flags, Running, output, all of memory (the
popped byte is not cleared); the fault status unless the register operand is illegal. -/
def Obligations.PopAndRetFrame : Prop :=
  ∀ (s t : State) (i : Instr), (∃ r, i = .pop r) ∨ i = .ret → exec i s = .next t →
    (∀ k, k ≠ Config.spIndex → i ≠ .pop (regByte k) → t.reg k = s.reg k) ∧ t.fl = s.fl ∧ t.running = s.running ∧
      t.out = s.out ∧ (∀ a, t.byteAt a = s.byteAt a) ∧ (i.registersInRange = true → t.fault = s.fault)

/-- What JMP, JEQ, JNE, PRN, HLT and an unrecognized byte leave unchanged: every register, all flags, all of memory; Running but for
HLT, the output but for PRN; the fault status unless the register operand is illegal. -/
def Obligations.BranchOutputAndHaltFrame : Prop :=
  ∀ (s t : State) (r : Byte) (i : Instr),
    i = .jmp r ∨ i = .jeq r ∨ i = .jne r ∨ i = .prn r ∨ i = .hlt ∨ i = .unrecognized r → exec i s = .next t →
    (∀ k, t.reg k = s.reg k) ∧ t.fl = s.fl ∧ (∀ a, t.byteAt a = s.byteAt a) ∧
      (i ≠ .hlt → t.running = s.running) ∧ (i ≠ .prn r → t.out = s.out) ∧ (i.registersInRange = true → t.fault = s.fault)

/-! ### Rules of the whole machine -/

/-- 44_dispatch.md section 1 (the spec's own D3, D11): JMP, CALL, RET and a taken JEQ or JNE leave the target in the pc; every other
instruction, and an untaken JEQ or JNE, leaves pc + its length. For HLT that is pc + 1, the spec's own D19 (log entry 15), which
44_dispatch.md section 2 lists as not said of a final state. -/
def Obligations.PcAdvancesByLengthUnlessTransferred : Prop :=
  ∀ (s t : State) (i : Instr), i.registersInRange = true → exec i s = .next t →
    match i with
    | .jmp r => ∀ k, r = regByte k → t.pc = (s.reg k).toNat
    | .jeq r => ∀ k, r = regByte k → t.pc = if s.fl.e then (s.reg k).toNat else s.pc + 2
    | .jne r => ∀ k, r = regByte k → t.pc = if s.fl.e then s.pc + 2 else (s.reg k).toNat
    | .call r => ∀ k, r = regByte k → t.pc = (t.reg k).toNat
    | .ret => t.pc = (s.byteAt s.sp.toNat).toNat
    | i => t.pc = s.pc + i.length

/-- R30: only CMP writes FL; only JEQ and JNE read it, and only E: replacing FL by other flags (with the same E for JEQ and JNE)
changes nothing of an instruction's effect but FL itself, so no instruction moves FL to a register or memory; JEQ and JNE do read E. -/
def Obligations.OnlyCmpWritesFlagsAndOnlyEIsRead : Prop :=
  (∀ (s t : State) (i : Instr), exec i s = .next t → i.opcode ≠ some .cmp → t.fl = s.fl) ∧
  (∀ (s t : State) (i : Instr) (f : Flags), exec i s = .next t →
    (i.opcode = some .jeq ∨ i.opcode = some .jne → f.e = s.fl.e) →
    exec i { s with fl := f } =
      .next { t with fl := if i.opcode = some .cmp ∧ i.registersInRange = true then t.fl else f }) ∧
  ∀ (s : State) (k : RegIndex) (f : Flags),
    exec (.jeq (regByte k)) { s with fl := f } =
      .next { s with fl := f, pc := if f.e then (s.reg k).toNat else s.pc + 2 } ∧
    exec (.jne (regByte k)) { s with fl := f } =
      .next { s with fl := f, pc := if f.e then s.pc + 2 else (s.reg k).toNat }

/-- R33: Running is true after construction, only a fetched HLT clears it, nothing sets it, no instruction reads it, and the loop
takes no step when it is false. -/
def Obligations.OnlyHltClearsRunning : Prop :=
  (∀ (fl : FlReset) (m0 : Memory), (State.launch fl m0).running = true) ∧
  (∀ s t : State, step s = .next t → s.running = true ∧ (t.running = false ↔ s.fetchInstr = .ok .hlt)) ∧
  ∀ (s t : State) (i : Instr) (b : Bool), exec i s = .next t →
    exec i { s with running := b } = .next { t with running := if i = .hlt then false else b }

/-- R36: the output is empty at reset, only a fetched PRN appends to it, one value, and the core cannot read it back. -/
def Obligations.OnlyPrnAppendsOutput : Prop :=
  (∀ (fl : FlReset) (m0 : Memory), (State.launch fl m0).out = []) ∧
  (∀ s t : State, step s = .next t → t.out ≠ s.out →
    ∃ k, s.fetchInstr = .ok (.prn (regByte k)) ∧ t.out = s.out ++ [s.reg k]) ∧
  ∀ (s t : State) (i : Instr) (o : List Byte), exec i s = .next t →
    exec i { s with out := o } = .next { t with out := o ++ t.out.drop s.out.length }

/-- PUSH and CALL are the only instructions that write memory, one byte at the decremented SP (70_reset_and_hazards.md section 3). -/
def Obligations.OnlyPushAndCallWriteMemory : Prop :=
  ∀ s t : State, step s = .next t → t.mem ≠ s.mem →
    (∃ r, s.fetchInstr = .ok (.push r) ∨ s.fetchInstr = .ok (.call r)) ∧
      ∃ v, t.mem = Memory.store s.mem (wrap (s.sp.toNat - 1)).toNat v

/-- 10_state.md section 1 (its table rests on D2): a register that an instruction neither names nor uses as SP is not changed by it
and has no influence on it. -/
def Obligations.UnusedRegistersNeitherChangeNorMatter : Prop :=
  ∀ (s t : State) (i : Instr) (k : RegIndex) (v : Int), usesRegister i k = false → exec i s = .next t →
    t.reg k = s.reg k ∧ exec i (s.setReg k v) = .next (t.setReg k v)

/-- Faults are precise: a step that records a fault changes nothing else, and the record names the faulting instruction's address
(the spec's own D7; log entry 1). -/
def Obligations.FaultsCommitNothing : Prop :=
  ∀ s t : State, step s = .next t → t.fault ≠ none → ∃ r : FaultRecord, r.faultPc = s.pc ∧ t = { s with fault := some r }

/-- The faults a step can record: MEM_BOUNDS with the pc of 256 or more, or with 256 for an instruction at 254 or 255, and
ILLEGAL_REGISTER with a byte of 8 or more; UNSUPPORTED_ALU_OP cannot arise (60_exceptions.md section 1; the spec's own D1, D2, D8; log
entries 1, 10). -/
def Obligations.OnlyReachableFaultsAreRecorded : Prop :=
  ∀ (s t : State) (r : FaultRecord), step s = .next t → t.fault = some r →
    (r.cause = .memBounds ∧ ((256 ≤ s.pc ∧ r.info = s.pc) ∨ ((s.pc = 254 ∨ s.pc = 255) ∧ r.info = 256))) ∨
      (r.cause = .illegalRegister ∧ 8 ≤ r.info ∧ r.info ≤ 255)

/-- A byte pushed onto the stack is what the next fetch at its address sees (20_memory.md section 5; the spec's own D18): a pushed
HLT opcode halts, a pushed unrecognized byte is skipped. -/
def Obligations.PushedBytesAreFetchedAsCode : Prop :=
  ∀ (s t : State) (i : RegIndex), s.status = .running → i ≠ 7 → exec (.push (regByte i)) s = .next t →
    (s.reg i = 0x01#8 → step { t with pc := t.sp.toNat } = .next { t with pc := t.sp.toNat + 1, running := false }) ∧
    ((∀ o : Opcode, s.reg i ≠ o.byte) → step { t with pc := t.sp.toNat } = .next { t with pc := t.sp.toNat + 1 })

/-- A JMP whose register holds the JMP's own address repeats forever: it is neither a halt nor a fault (42_branch.md; 44_dispatch.md
section 2). -/
def Obligations.JumpToItselfRunsForever : Prop :=
  ∀ (s : State) (k : RegIndex), s.status = .running → s.pc ≤ 254 → s.byteAt s.pc = 0x54#8 →
    s.byteAt (s.pc + 1) = regByte k → (s.reg k).toNat = s.pc → ∀ n, Host.Core.run Sys2Proof.core n s = .next s

/-- From any Running state whose bytes from the pc to 255 are all unrecognized, the core slides one byte a step to pc 256
and there records MEM_BOUNDS with 256, in a next state (70_reset_and_hazards.md section 1; the spec's own D1, D3, D7; log entry 1). -/
def Obligations.UnrecognizedSlideEndsInMemBounds : Prop :=
  ∀ s : State, s.status = .running → s.pc ≤ 256 →
    (∀ a, s.pc ≤ a → a ≤ 255 → ∀ o : Opcode, s.byteAt a ≠ o.byte) →
    Host.Core.run Sys2Proof.core (256 - s.pc) s = .next { s with pc := 256 } ∧
    Host.Core.run Sys2Proof.core (256 - s.pc + 1) s =
      .next { s with pc := 256, fault := some ⟨.memBounds, 256, 256⟩ }

/-! ### Invariants, reset and loading -/

/-- Headline: every step keeps the invariant: pc 0..258, flags mutually exclusive, memory canonical over 0..255, any fault record a
legal one that names the pc (10_state.md sections 2, 3, 5; the spec's own D3, D5, D7, D8). -/
def Obligations.StepKeepsTheInvariant : Prop :=
  ∀ s t : State, s.Inv → step s = .next t → t.Inv

/-- The invariant holds at launch, for every FL_RESET and every canonical launch memory, and so at State.reset. -/
def Obligations.LaunchMeetsTheInvariant : Prop :=
  (∀ (fl : FlReset) (m0 : Memory), Memory.wf m0 = true → (State.launch fl m0).Inv) ∧ State.reset.Inv

/-- Sharper than the spec's 0..258: no step takes a pc of at most 256 beyond 256, since the operand fetch faults first. -/
def Obligations.PcNeverPasses256 : Prop :=
  ∀ s t : State, s.pc ≤ 256 → step s = .next t → t.pc ≤ 256

/-- R23: at reset register 7 is 0xF4 and all others are 0, for every launch parameter. -/
def Obligations.ResetRegistersAreAsStated : Prop :=
  ∀ (fl : FlReset) (m0 : Memory) (k : RegIndex), (State.launch fl m0).reg k = if k = 7 then 0xF4#8 else 0x00#8

/-- R162: the pc starts at 0, and the first step runs the instruction at M0[0]; no vector is read. -/
def Obligations.FirstInstructionIsAtAddressZero : Prop :=
  ∀ (fl : FlReset) (m0 : Memory), (State.launch fl m0).pc = 0 ∧
    ∀ (i : Instr) (rest : List Byte), decode ((List.range 256).map fun a => Memory.lookup m0 a) = .ok (i, rest) →
      step (State.launch fl m0) = exec i (State.launch fl m0)

/-- State.reset is the launch at the model's chosen defaults (DESIGN CHOICE, log entries 3 and 4): all flags false, every byte of
memory zero; it is Running, with no fault and no output. -/
def Obligations.ResetTakesTheNamedDefaults : Prop :=
  State.reset.fl = ⟨false, false, false⟩ ∧ (∀ a, State.reset.byteAt a = 0x00#8) ∧ State.reset.status = .running ∧
    State.reset.out = [] ∧ State.reset.pc = 0 ∧ State.reset.faultCode = 0

/-- The loader writes the image from address 0 in order over whatever memory held; an image of more than 256 bytes is a load-time
failure (44_dispatch.md section 3; the spec's own D6, D20); everything else is the launch state. That an image value of 256 or more
is loaded and stored modulo 256 is the model's choice (DEDUCED, log entry 21; 91_not_in_source.md N18). -/
def Obligations.LoaderWritesTheImageFromZero : Prop :=
  ∀ (fl : FlReset) (m0 : Memory) (image : List Nat),
    (image.length ≤ 256 → ∃ s, boot fl m0 image = some s ∧
      (∀ k v, image[k]? = some v → s.byteAt k = BitVec.ofNat 8 (v % 256)) ∧
      (∀ a, image.length ≤ a → s.byteAt a = Memory.lookup m0 a) ∧
      s = { State.launch fl m0 with mem := s.mem }) ∧
    (256 < image.length → boot fl m0 image = none)

/-! ### Memory, registers, ALU and flags -/

/-- R45: at every address 0..255 a write stores the value modulo 256, a read gives it back, both are total, and every other byte and
all other state stay. -/
def Obligations.ByteReadsBackAfterWrite : Prop :=
  ∀ (s : State) (a : Nat) (v : Nat), a < 256 →
    ∃ t, s.memWrite a v = .ok t ∧ t.memRead a = .ok (BitVec.ofNat 8 (v % 256)) ∧
      (∀ b, b ≠ a → t.memRead b = s.memRead b) ∧ (∃ x, s.memRead a = .ok x) ∧ t = { s with mem := t.mem }

/-- Memory outside 0..255 does not exist: a read or write there raises MEM_BOUNDS with the address and is never taken modulo 256
(the spec's own D1). -/
def Obligations.AccessOutsideMemoryRaisesMemBounds : Prop :=
  ∀ (s : State) (a : Nat) (v : Int), 256 ≤ a →
    s.memRead a = .error ⟨.memBounds, a⟩ ∧ s.memWrite a v = .error ⟨.memBounds, a⟩

/-- The canonical form is canonical: two memories in it that read alike at every address 0..255 are the same data. -/
def Obligations.CanonicalMemoriesThatReadAlikeAreEqual : Prop :=
  ∀ m n : Memory, Memory.wf m = true → Memory.wf n = true →
    (∀ a, a < 256 → Memory.lookup m a = Memory.lookup n a) → m = n

/-- R20, R22: each of the 8 registers holds what is written to it, modulo 256; a write changes no other register, no flag, no fault
and nothing else; none is hardwired. -/
def Obligations.RegisterWriteStoresModulo256 : Prop :=
  ∀ (s : State) (i : RegIndex) (v : Int),
    (((s.setReg i v).reg i).toNat : Int) = v % 256 ∧ (∀ j, j ≠ i → (s.setReg i v).reg j = s.reg j) ∧
      s.setReg i v = { s with regs := (s.setReg i v).regs }

/-- R80: the ALU works on two registers, with no effect on memory, pc, Running, fault or output; ADD and MUL write the exact result
modulo 256 to the first register and no flag, CMP writes the flags and no register. -/
def Obligations.AluTouchesOnlyRegistersAndFlags : Prop :=
  ∀ (s : State) (op : AluOp) (i j : RegIndex),
    s.alu op i j = { s with regs := (s.alu op i j).regs, fl := (s.alu op i j).fl } ∧
    match op with
    | .add => (s.alu .add i j).fl = s.fl ∧ ((s.alu .add i j).reg i).toNat = ((s.reg i).toNat + (s.reg j).toNat) % 256 ∧
        ∀ k, k ≠ i → (s.alu .add i j).reg k = s.reg k
    | .mul => (s.alu .mul i j).fl = s.fl ∧ ((s.alu .mul i j).reg i).toNat = ((s.reg i).toNat * (s.reg j).toNat) % 256 ∧
        ∀ k, k ≠ i → (s.alu .mul i j).reg k = s.reg k
    | .cmp => (s.alu .cmp i j).regs = s.regs ∧ (s.alu .cmp i j).fl.exactlyOne = true

/-- ADD and MUL give the same bits as two's-complement arithmetic (40_alu.md section 3, the spec's own derivation). -/
def Obligations.AluBitsAgreeWithSignedArithmetic : Prop :=
  ∀ (s : State) (i j : RegIndex),
    (s.alu .add i j).reg i = BitVec.ofInt 8 ((s.reg i).toInt + (s.reg j).toInt) ∧
    (s.alu .mul i j).reg i = BitVec.ofInt 8 ((s.reg i).toInt * (s.reg j).toInt)

/-! ### Stack laws and idioms -/

/-- PUSH r, anything that brings SP back and keeps the pushed byte, then POP r: the register and SP are as before the PUSH, for every
register, R7 among them (41_stack.md, the stack laws; the spec's own D11). -/
def Obligations.PopUndoesPush : Prop :=
  ∀ (s t u : State) (i : RegIndex), exec (.push (regByte i)) s = .next t → u.sp = t.sp →
    u.byteAt t.sp.toNat = t.byteAt t.sp.toNat →
    ∃ v, exec (.pop (regByte i)) u = .next v ∧ v.reg i = s.reg i ∧ v.sp = s.sp

/-- CALL, anything that brings SP back and keeps the return byte, then RET: the pc is the call site + 2 modulo 256 and SP is as
before the CALL (41_stack.md, the stack laws; the spec's own D12). -/
def Obligations.RetUndoesCall : Prop :=
  ∀ (s t u : State) (i : RegIndex), exec (.call (regByte i)) s = .next t → u.sp = t.sp →
    u.byteAt t.sp.toNat = t.byteAt t.sp.toNat →
    ∃ v, exec .ret u = .next v ∧ v.pc = (s.pc + 2) % 256 ∧ v.sp = s.sp

/-- Any interleaving of PUSH and POP in LIFO order that holds at most 256 bytes at once runs to completion, restores all 8
registers, and changes memory only in the bytes below SP it used (41_stack.md, the stack laws; the spec's own D4, D11). -/
def Obligations.BalancedStackCodeRestoresRegisters : Prop :=
  ∀ (p : Balanced) (s : State), p.depth ≤ 256 →
    ∃ t, execAll p.code s = .next t ∧ t.regs = s.regs ∧ t.pc = s.pc + 2 * p.code.length ∧
      t.fl = s.fl ∧ t.running = s.running ∧ t.fault = s.fault ∧ t.out = s.out ∧
      ∀ a, (∀ k, 1 ≤ k → k ≤ p.depth → a ≠ (s.sp.toNat + 256 - k) % 256) → t.byteAt a = s.byteAt a

/-- The idioms of 30_encoding.md section 4: LDI Rt,255 then ADD Rd,Rt decrements Rd; LDI Rd,0 then ADD Rd,Rs copies Rs; LDI Rt,v
then JMP Rt jumps to v. -/
def Obligations.IdiomsDecrementMoveAndJump : Prop :=
  (∀ (s : State) (d r : RegIndex), d ≠ r →
    ∃ t, execAll [.ldi (regByte r) 255#8, .add (regByte d) (regByte r)] s = .next t ∧
      ((t.reg d).toNat : Int) = ((s.reg d).toNat - 1) % 256) ∧
  (∀ (s : State) (d r : RegIndex), d ≠ r →
    ∃ t, execAll [.ldi (regByte d) 0#8, .add (regByte d) (regByte r)] s = .next t ∧ t.reg d = s.reg r) ∧
  ∀ (s : State) (r : RegIndex) (v : Byte),
    ∃ t, execAll [.ldi (regByte r) v, .jmp (regByte r)] s = .next t ∧ t.pc = v.toNat
end

