-- ==== Sys2Proof/Laws/Decode.lean ====
section
/-! SUPPORT. The laws of the decoder over any source of bytes: what it answers is what the source gives, byte for byte. -/

namespace Sys2Proof

@[simp] theorem except_bind_ok {ε α β : Type} (x : α) (k : α → Except ε β) : ((Except.ok x : Except ε α) >>= k) = k x := rfl
@[simp] theorem except_bind_error {ε α β : Type} (e : ε) (k : α → Except ε β) :
    ((Except.error e : Except ε α) >>= k) = .error e := rfl
@[simp] theorem except_pure {ε α : Type} (x : α) : (pure x : Except ε α) = .ok x := rfl

@[simp] theorem Opcode.ofByte?_byte (o : Opcode) : Opcode.ofByte? o.byte = some o := by
  cases o <;> decide

theorem Opcode.ofByte?_eq_some {b : Byte} {o : Opcode} (h : Opcode.ofByte? b = some o) : o.byte = b := by
  have := List.find?_some h
  simpa using this

theorem Opcode.ofByte?_eq_none_iff (b : Byte) : Opcode.ofByte? b = none ↔ ∀ o : Opcode, b ≠ o.byte := by
  constructor
  · rintro h o rfl
    simp at h
  · intro h
    unfold Opcode.ofByte?
    rw [List.find?_eq_none]
    intro o _
    simpa using (h o).symm

/-- R66's ranges are the complement of the 13 opcode bytes. -/
theorem unrecognizedByte_iff (b : Byte) : unrecognizedByte b = true ↔ Opcode.ofByte? b = none := by
  have h : ∀ n : Fin 256, unrecognizedByte (BitVec.ofFin n) = (Opcode.ofByte? (BitVec.ofFin n)).isNone := by decide +kernel
  have := h b.toFin
  rw [BitVec.ofFin_toFin] at this
  simp [this]

theorem oneOperand_ok {ε : Type} {fetch : Nat → Except ε Byte} {k : Byte → Instr} {i : Instr} :
    oneOperand fetch k = .ok i ↔ ∃ r, fetch 1 = .ok r ∧ i = k r := by
  unfold oneOperand
  cases fetch 1 <;> simp [eq_comm]

theorem twoOperands_ok {ε : Type} {fetch : Nat → Except ε Byte} {k : Byte → Byte → Instr} {i : Instr} :
    twoOperands fetch k = .ok i ↔ ∃ a b, fetch 1 = .ok a ∧ fetch 2 = .ok b ∧ i = k a b := by
  unfold twoOperands
  cases fetch 1 <;> cases fetch 2 <;> simp [eq_comm]

/-- What `decodeFrom` can answer: the recognized opcode's instruction, or the unrecognized byte. -/
theorem decodeFrom_ok_cases {ε : Type} {fetch : Nat → Except ε Byte} {i : Instr} :
    decodeFrom fetch = .ok i ↔
      (∃ o : Opcode, fetch 0 = .ok o.byte ∧ decodeOperands fetch o = .ok i) ∨
        ∃ op, fetch 0 = .ok op ∧ Opcode.ofByte? op = none ∧ i = .unrecognized op := by
  unfold decodeFrom
  cases h0 : fetch 0 with
  | error e => simp
  | ok op =>
    simp only [except_bind_ok, Except.ok.injEq]
    constructor
    · intro h
      cases hop : Opcode.ofByte? op with
      | none => rw [hop] at h; cases h; exact .inr ⟨op, rfl, hop, rfl⟩
      | some o => rw [hop] at h; exact .inl ⟨o, (Opcode.ofByte?_eq_some hop).symm, h⟩
    · rintro (⟨o, rfl, h⟩ | ⟨_, rfl, h, rfl⟩)
      · simpa using h
      · rw [h]; rfl

/-- The source of bytes gives an instruction's own encoding, as far as it goes. -/
def GivesEncoding {ε : Type} (fetch : Nat → Except ε Byte) (i : Instr) : Prop :=
  ∀ k b, (encode i)[k]? = some b → fetch k = .ok b

theorem givesEncoding_one {ε : Type} {fetch : Nat → Except ε Byte} {i : Instr} {op : Byte} (h : encode i = [op]) :
    GivesEncoding fetch i ↔ fetch 0 = .ok op := by
  unfold GivesEncoding
  rw [h]
  refine ⟨fun H => H 0 op rfl, fun H k b hk => ?_⟩
  match k, hk with
  | 0, hk => cases hk; exact H

theorem givesEncoding_two {ε : Type} {fetch : Nat → Except ε Byte} {i : Instr} {op r : Byte} (h : encode i = [op, r]) :
    GivesEncoding fetch i ↔ fetch 0 = .ok op ∧ fetch 1 = .ok r := by
  unfold GivesEncoding
  rw [h]
  refine ⟨fun H => ⟨H 0 op rfl, H 1 r rfl⟩, fun ⟨H0, H1⟩ k b hk => ?_⟩
  match k, hk with
  | 0, hk => cases hk; exact H0
  | 1, hk => cases hk; exact H1

theorem givesEncoding_three {ε : Type} {fetch : Nat → Except ε Byte} {i : Instr} {op r v : Byte} (h : encode i = [op, r, v]) :
    GivesEncoding fetch i ↔ fetch 0 = .ok op ∧ fetch 1 = .ok r ∧ fetch 2 = .ok v := by
  unfold GivesEncoding
  rw [h]
  refine ⟨fun H => ⟨H 0 op rfl, H 1 r rfl, H 2 v rfl⟩, fun ⟨H0, H1, H2⟩ k b hk => ?_⟩
  match k, hk with
  | 0, hk => cases hk; exact H0
  | 1, hk => cases hk; exact H1
  | 2, hk => cases hk; exact H2

/-- `decodeFrom` answers exactly the well-formed instruction whose encoding the source of bytes gives. -/
theorem decodeFrom_eq_ok_iff {ε : Type} {fetch : Nat → Except ε Byte} {i : Instr} :
    decodeFrom fetch = .ok i ↔ i.wellFormed = true ∧ GivesEncoding fetch i := by
  rw [decodeFrom_ok_cases]
  constructor
  · rintro (⟨o, h0, h⟩ | ⟨op, h0, hop, rfl⟩)
    · cases o <;> simp only [decodeOperands, oneOperand_ok, twoOperands_ok, Except.ok.injEq] at h
      case hlt => subst h; exact ⟨rfl, (givesEncoding_one rfl).mpr h0⟩
      case ret => subst h; exact ⟨rfl, (givesEncoding_one rfl).mpr h0⟩
      case ldi | add | mul | cmp => obtain ⟨a, b, h1, h2, rfl⟩ := h; exact ⟨rfl, (givesEncoding_three rfl).mpr ⟨h0, h1, h2⟩⟩
      all_goals obtain ⟨r, h1, rfl⟩ := h; exact ⟨rfl, (givesEncoding_two rfl).mpr ⟨h0, h1⟩⟩
    · exact ⟨(unrecognizedByte_iff op).mpr hop, (givesEncoding_one rfl).mpr h0⟩
  · rintro ⟨hw, h⟩
    cases i
    case unrecognized op => exact .inr ⟨op, (givesEncoding_one rfl).mp h, (unrecognizedByte_iff op).mp hw, rfl⟩
    case hlt => exact .inl ⟨.hlt, (givesEncoding_one rfl).mp h, rfl⟩
    case ret => exact .inl ⟨.ret, (givesEncoding_one rfl).mp h, rfl⟩
    case push r => have h := (givesEncoding_two rfl).mp h; exact .inl ⟨.push, h.1, oneOperand_ok.mpr ⟨r, h.2, rfl⟩⟩
    case pop r => have h := (givesEncoding_two rfl).mp h; exact .inl ⟨.pop, h.1, oneOperand_ok.mpr ⟨r, h.2, rfl⟩⟩
    case prn r => have h := (givesEncoding_two rfl).mp h; exact .inl ⟨.prn, h.1, oneOperand_ok.mpr ⟨r, h.2, rfl⟩⟩
    case call r => have h := (givesEncoding_two rfl).mp h; exact .inl ⟨.call, h.1, oneOperand_ok.mpr ⟨r, h.2, rfl⟩⟩
    case jmp r => have h := (givesEncoding_two rfl).mp h; exact .inl ⟨.jmp, h.1, oneOperand_ok.mpr ⟨r, h.2, rfl⟩⟩
    case jeq r => have h := (givesEncoding_two rfl).mp h; exact .inl ⟨.jeq, h.1, oneOperand_ok.mpr ⟨r, h.2, rfl⟩⟩
    case jne r => have h := (givesEncoding_two rfl).mp h; exact .inl ⟨.jne, h.1, oneOperand_ok.mpr ⟨r, h.2, rfl⟩⟩
    case ldi r v => have h := (givesEncoding_three rfl).mp h; exact .inl ⟨.ldi, h.1, twoOperands_ok.mpr ⟨r, v, h.2.1, h.2.2, rfl⟩⟩
    case add r v => have h := (givesEncoding_three rfl).mp h; exact .inl ⟨.add, h.1, twoOperands_ok.mpr ⟨r, v, h.2.1, h.2.2, rfl⟩⟩
    case mul r v => have h := (givesEncoding_three rfl).mp h; exact .inl ⟨.mul, h.1, twoOperands_ok.mpr ⟨r, v, h.2.1, h.2.2, rfl⟩⟩
    case cmp r v => have h := (givesEncoding_three rfl).mp h; exact .inl ⟨.cmp, h.1, twoOperands_ok.mpr ⟨r, v, h.2.1, h.2.2, rfl⟩⟩

/-- When `decodeFrom` raises, the source raised at the opcode byte or at one of the opcode's own operand bytes, every byte before
it having been given. -/
theorem decodeFrom_error {ε : Type} {fetch : Nat → Except ε Byte} {e : ε} (h : decodeFrom fetch = .error e) :
    fetch 0 = .error e ∨
      ∃ o : Opcode, fetch 0 = .ok o.byte ∧
        ((1 ≤ o.operandCount ∧ fetch 1 = .error e) ∨ (o.operandCount = 2 ∧ (∃ a, fetch 1 = .ok a) ∧ fetch 2 = .error e)) := by
  unfold decodeFrom at h
  cases h0 : fetch 0 with
  | error e' => rw [h0] at h; cases h; exact .inl rfl
  | ok op =>
    rw [h0, except_bind_ok] at h
    cases hop : Opcode.ofByte? op with
    | none => rw [hop] at h; cases h
    | some o =>
      rw [hop] at h
      refine .inr ⟨o, by rw [Opcode.ofByte?_eq_some hop], ?_⟩
      cases h1 : fetch 1 <;> cases h2 : fetch 2 <;> cases o <;>
        simp_all [decodeOperands, oneOperand, twoOperands, Opcode.operandCount]

end Sys2Proof
end

