-- ==== Sys2Proof/Laws/Memory.lean ====
section
/-! SUPPORT. The laws of memory: what a read gives after a store, that a store keeps the canonical form, and that the canonical
form is determined by what reads give. -/

namespace Sys2Proof.Machine

@[simp] theorem Memory.lookup_nil (a : Nat) : Memory.lookup [] a = Config.memFill := rfl

theorem Memory.lookup_cons (c : Host.Cell) (m : Memory) (a : Nat) :
    Memory.lookup (c :: m) a = if c.1 = a then c.2 else Memory.lookup m a := rfl

theorem Memory.lookup_erase (m : Memory) (a b : Nat) :
    Memory.lookup (Memory.erase m a) b = if b = a then Config.memFill else Memory.lookup m b := by
  induction m with
  | nil => simp [Memory.erase]
  | cons c m ih =>
    unfold Memory.erase at ih ⊢
    by_cases hc : c.1 = a
    · by_cases hb : b = a
      · simp_all
      · have : c.1 ≠ b := fun h => hb (h ▸ hc)
        simp_all [Memory.lookup_cons]
    · by_cases hcb : c.1 = b
      · simp_all [Memory.lookup_cons]
      · simp [hc, hcb, ih, Memory.lookup_cons]

theorem Memory.lookup_insert_self (m : Memory) (a : Nat) (v : Byte) (h : ∀ c ∈ m, c.1 ≠ a) :
    Memory.lookup (Memory.insert m a v) a = v := by
  induction m with
  | nil => simp [Memory.insert, Memory.lookup_cons]
  | cons c m ih =>
    have hc : c.1 ≠ a := h c (by simp)
    unfold Memory.insert
    split
    · simp [Memory.lookup_cons]
    · simp [Memory.lookup_cons, hc, ih fun d hd => h d (by simp [hd])]

theorem Memory.lookup_insert_other (m : Memory) (a b : Nat) (v : Byte) (h : b ≠ a) :
    Memory.lookup (Memory.insert m a v) b = Memory.lookup m b := by
  induction m with
  | nil => simp [Memory.insert, Memory.lookup_cons, h.symm]
  | cons c m ih =>
    unfold Memory.insert
    split
    · simp [Memory.lookup_cons, h.symm]
    · simp [Memory.lookup_cons, ih]

theorem Memory.erase_ne (m : Memory) (a : Nat) : ∀ c ∈ Memory.erase m a, c.1 ≠ a := by
  intro c hc
  simpa using (List.mem_filter.mp hc).2

/-- Everything a store does to what reads give, in every list, canonical or not. -/
theorem Memory.lookup_store (m : Memory) (a b : Nat) (v : Byte) :
    Memory.lookup (Memory.store m a v) b = if b = a then v else Memory.lookup m b := by
  unfold Memory.store
  by_cases hv : v = Config.memFill
  · simp [hv, Memory.lookup_erase]
  · by_cases hb : b = a
    · subst hb
      simp [hv, Memory.lookup_insert_self _ _ _ (Memory.erase_ne m b)]
    · simp [hv, hb, Memory.lookup_insert_other, Memory.lookup_erase]

/-- The canonical form as a proposition: addresses strictly rising, each in 0..255, no entry equal to the fill. -/
theorem Memory.rising_iff (m : Memory) :
    (Memory.rising none m = true ↔ m.Pairwise fun c d => c.1 < d.1) ∧
      ∀ lo, Memory.rising (some lo) m = true ↔ (∀ c ∈ m, lo < c.1) ∧ m.Pairwise fun c d => c.1 < d.1 := by
  induction m with
  | nil => simp [Memory.rising]
  | cons c m ih =>
    refine ⟨?_, fun lo => ?_⟩
    · simp [Memory.rising, ih.2, List.pairwise_cons]
    · simp only [Memory.rising, Bool.and_eq_true, decide_eq_true_eq, ih.2, List.mem_cons, List.pairwise_cons, forall_eq_or_imp]
      constructor
      · rintro ⟨h, hm, hp⟩
        exact ⟨⟨h, fun d hd => Nat.lt_trans h (hm d hd)⟩, hm, hp⟩
      · rintro ⟨⟨h, -⟩, hm, hp⟩
        exact ⟨h, hm, hp⟩

theorem Memory.wf_iff (m : Memory) :
    Memory.wf m = true ↔
      (m.Pairwise fun c d => c.1 < d.1) ∧ ∀ c ∈ m, c.1 < Config.memSize ∧ c.2 ≠ Config.memFill := by
  unfold Memory.wf
  rw [Bool.and_eq_true, (Memory.rising_iff m).1]
  simp

theorem Memory.mem_insert (m : Memory) (a : Nat) (v : Byte) (c : Host.Cell) :
    c ∈ Memory.insert m a v ↔ c = (a, v) ∨ c ∈ m := by
  induction m with
  | nil => simp [Memory.insert]
  | cons d m ih =>
    unfold Memory.insert
    split
    · simp
    · simp only [List.mem_cons, ih]
      constructor
      · rintro (h | h | h) <;> simp [h]
      · rintro (h | h | h) <;> simp [h]

theorem Memory.pairwise_insert (m : Memory) (a : Nat) (v : Byte) (h : ∀ c ∈ m, c.1 ≠ a)
    (hp : m.Pairwise fun c d => c.1 < d.1) : (Memory.insert m a v).Pairwise fun c d => c.1 < d.1 := by
  induction m with
  | nil => simp [Memory.insert]
  | cons c m ih =>
    obtain ⟨hc, hm⟩ := List.pairwise_cons.mp hp
    unfold Memory.insert
    split
    · rename_i hac
      refine List.pairwise_cons.mpr ⟨?_, hp⟩
      intro d hd
      rcases List.mem_cons.mp hd with rfl | hd
      · exact hac
      · exact Nat.lt_trans hac (hc d hd)
    · rename_i hac
      refine List.pairwise_cons.mpr ⟨?_, ih (fun d hd => h d (by simp [hd])) hm⟩
      intro d hd
      rcases (Memory.mem_insert _ _ _ _).mp hd with rfl | hd
      · have := h c (by simp)
        show c.1 < a
        omega
      · exact hc d hd

/-- A store at an address of 0..255 keeps the canonical form. -/
theorem Memory.wf_store {m : Memory} (a : Nat) (v : Byte) (h : Memory.wf m = true) (ha : a < Config.memSize) :
    Memory.wf (Memory.store m a v) = true := by
  obtain ⟨hp, hm⟩ := (Memory.wf_iff m).mp h
  have hep : (Memory.erase m a).Pairwise fun c d => c.1 < d.1 := hp.filter _
  have hem : ∀ c ∈ Memory.erase m a, c.1 < Config.memSize ∧ c.2 ≠ Config.memFill :=
    fun c hc => hm c (List.mem_filter.mp hc).1
  rw [Memory.wf_iff]
  unfold Memory.store
  split
  · exact ⟨hep, hem⟩
  · rename_i hv
    refine ⟨Memory.pairwise_insert _ _ _ (Memory.erase_ne m a) hep, fun c hc => ?_⟩
    rcases (Memory.mem_insert _ _ _ _).mp hc with rfl | hc
    · exact ⟨ha, hv⟩
    · exact hem c hc

/-- The memory of `State.reset` is canonical. -/
theorem Memory.wf_nil : Memory.wf [] = true := rfl

end Sys2Proof.Machine
end

