-- ==== Sys2Proof/Laws/State.lean ====
section
/-! SUPPORT. One lemma per field and update of State, true by rfl, so that no later proof unfolds a record update; and the same
for the two views of a state, a register and a byte of memory. -/

namespace Sys2Proof.Machine

@[simp] theorem State.setReg_regs (s : State) (i : RegIndex) (v : Int) : (s.setReg i v).regs = s.regs.set i.val (wrap v) i.isLt := rfl
@[simp] theorem State.setReg_pc (s : State) (i : RegIndex) (v : Int) : (s.setReg i v).pc = s.pc := rfl
@[simp] theorem State.setReg_fl (s : State) (i : RegIndex) (v : Int) : (s.setReg i v).fl = s.fl := rfl
@[simp] theorem State.setReg_running (s : State) (i : RegIndex) (v : Int) : (s.setReg i v).running = s.running := rfl
@[simp] theorem State.setReg_fault (s : State) (i : RegIndex) (v : Int) : (s.setReg i v).fault = s.fault := rfl
@[simp] theorem State.setReg_mem (s : State) (i : RegIndex) (v : Int) : (s.setReg i v).mem = s.mem := rfl
@[simp] theorem State.setReg_out (s : State) (i : RegIndex) (v : Int) : (s.setReg i v).out = s.out := rfl
@[simp] theorem State.setReg_byteAt (s : State) (i : RegIndex) (v : Int) (a : Nat) : (s.setReg i v).byteAt a = s.byteAt a := rfl

@[simp] theorem State.setSp_regs (s : State) (v : Int) : (s.setSp v).regs = s.regs.set 7 (wrap v) := rfl
@[simp] theorem State.setSp_pc (s : State) (v : Int) : (s.setSp v).pc = s.pc := rfl
@[simp] theorem State.setSp_fl (s : State) (v : Int) : (s.setSp v).fl = s.fl := rfl
@[simp] theorem State.setSp_running (s : State) (v : Int) : (s.setSp v).running = s.running := rfl
@[simp] theorem State.setSp_fault (s : State) (v : Int) : (s.setSp v).fault = s.fault := rfl
@[simp] theorem State.setSp_mem (s : State) (v : Int) : (s.setSp v).mem = s.mem := rfl
@[simp] theorem State.setSp_out (s : State) (v : Int) : (s.setSp v).out = s.out := rfl
@[simp] theorem State.setSp_byteAt (s : State) (v : Int) (a : Nat) : (s.setSp v).byteAt a = s.byteAt a := rfl

@[simp] theorem State.advance_regs (s : State) (n : Nat) : (s.advance n).regs = s.regs := rfl
@[simp] theorem State.advance_pc (s : State) (n : Nat) : (s.advance n).pc = s.pc + 1 + n := rfl
@[simp] theorem State.advance_fl (s : State) (n : Nat) : (s.advance n).fl = s.fl := rfl
@[simp] theorem State.advance_running (s : State) (n : Nat) : (s.advance n).running = s.running := rfl
@[simp] theorem State.advance_fault (s : State) (n : Nat) : (s.advance n).fault = s.fault := rfl
@[simp] theorem State.advance_mem (s : State) (n : Nat) : (s.advance n).mem = s.mem := rfl
@[simp] theorem State.advance_out (s : State) (n : Nat) : (s.advance n).out = s.out := rfl
@[simp] theorem State.advance_reg (s : State) (n : Nat) (k : RegIndex) : (s.advance n).reg k = s.reg k := rfl
@[simp] theorem State.advance_sp (s : State) (n : Nat) : (s.advance n).sp = s.sp := rfl
@[simp] theorem State.advance_byteAt (s : State) (n : Nat) (a : Nat) : (s.advance n).byteAt a = s.byteAt a := rfl

@[simp] theorem State.jumpTo_regs (s : State) (target : Byte) : (s.jumpTo target).regs = s.regs := rfl
@[simp] theorem State.jumpTo_pc (s : State) (target : Byte) : (s.jumpTo target).pc = target.toNat := rfl
@[simp] theorem State.jumpTo_fl (s : State) (target : Byte) : (s.jumpTo target).fl = s.fl := rfl
@[simp] theorem State.jumpTo_running (s : State) (target : Byte) : (s.jumpTo target).running = s.running := rfl
@[simp] theorem State.jumpTo_fault (s : State) (target : Byte) : (s.jumpTo target).fault = s.fault := rfl
@[simp] theorem State.jumpTo_mem (s : State) (target : Byte) : (s.jumpTo target).mem = s.mem := rfl
@[simp] theorem State.jumpTo_out (s : State) (target : Byte) : (s.jumpTo target).out = s.out := rfl
@[simp] theorem State.jumpTo_reg (s : State) (target : Byte) (k : RegIndex) : (s.jumpTo target).reg k = s.reg k := rfl
@[simp] theorem State.jumpTo_sp (s : State) (target : Byte) : (s.jumpTo target).sp = s.sp := rfl
@[simp] theorem State.jumpTo_byteAt (s : State) (target : Byte) (a : Nat) : (s.jumpTo target).byteAt a = s.byteAt a := rfl

@[simp] theorem State.emit_regs (s : State) (v : Byte) : (s.emit v).regs = s.regs := rfl
@[simp] theorem State.emit_pc (s : State) (v : Byte) : (s.emit v).pc = s.pc := rfl
@[simp] theorem State.emit_fl (s : State) (v : Byte) : (s.emit v).fl = s.fl := rfl
@[simp] theorem State.emit_running (s : State) (v : Byte) : (s.emit v).running = s.running := rfl
@[simp] theorem State.emit_fault (s : State) (v : Byte) : (s.emit v).fault = s.fault := rfl
@[simp] theorem State.emit_mem (s : State) (v : Byte) : (s.emit v).mem = s.mem := rfl
@[simp] theorem State.emit_out (s : State) (v : Byte) : (s.emit v).out = s.out ++ [v] := rfl
@[simp] theorem State.emit_reg (s : State) (v : Byte) (k : RegIndex) : (s.emit v).reg k = s.reg k := rfl
@[simp] theorem State.emit_sp (s : State) (v : Byte) : (s.emit v).sp = s.sp := rfl
@[simp] theorem State.emit_byteAt (s : State) (v : Byte) (a : Nat) : (s.emit v).byteAt a = s.byteAt a := rfl

@[simp] theorem State.halt_regs (s : State) : (s.halt).regs = s.regs := rfl
@[simp] theorem State.halt_pc (s : State) : (s.halt).pc = s.pc := rfl
@[simp] theorem State.halt_fl (s : State) : (s.halt).fl = s.fl := rfl
@[simp] theorem State.halt_running (s : State) : (s.halt).running = false := rfl
@[simp] theorem State.halt_fault (s : State) : (s.halt).fault = s.fault := rfl
@[simp] theorem State.halt_mem (s : State) : (s.halt).mem = s.mem := rfl
@[simp] theorem State.halt_out (s : State) : (s.halt).out = s.out := rfl
@[simp] theorem State.halt_reg (s : State) (k : RegIndex) : (s.halt).reg k = s.reg k := rfl
@[simp] theorem State.halt_sp (s : State) : (s.halt).sp = s.sp := rfl
@[simp] theorem State.halt_byteAt (s : State) (a : Nat) : (s.halt).byteAt a = s.byteAt a := rfl

@[simp] theorem State.takeFault_regs (s : State) (r : Raise) : (s.takeFault r).regs = s.regs := rfl
@[simp] theorem State.takeFault_pc (s : State) (r : Raise) : (s.takeFault r).pc = s.pc := rfl
@[simp] theorem State.takeFault_fl (s : State) (r : Raise) : (s.takeFault r).fl = s.fl := rfl
@[simp] theorem State.takeFault_running (s : State) (r : Raise) : (s.takeFault r).running = s.running := rfl
@[simp] theorem State.takeFault_fault (s : State) (r : Raise) : (s.takeFault r).fault = some ⟨r.cause, r.info, s.pc⟩ := rfl
@[simp] theorem State.takeFault_mem (s : State) (r : Raise) : (s.takeFault r).mem = s.mem := rfl
@[simp] theorem State.takeFault_out (s : State) (r : Raise) : (s.takeFault r).out = s.out := rfl
@[simp] theorem State.takeFault_reg (s : State) (r : Raise) (k : RegIndex) : (s.takeFault r).reg k = s.reg k := rfl
@[simp] theorem State.takeFault_sp (s : State) (r : Raise) : (s.takeFault r).sp = s.sp := rfl
@[simp] theorem State.takeFault_byteAt (s : State) (r : Raise) (a : Nat) : (s.takeFault r).byteAt a = s.byteAt a := rfl

@[simp] theorem State.storeByte_regs (s : State) (a : Nat) (v : Int) : (s.storeByte a v).regs = s.regs := rfl
@[simp] theorem State.storeByte_pc (s : State) (a : Nat) (v : Int) : (s.storeByte a v).pc = s.pc := rfl
@[simp] theorem State.storeByte_fl (s : State) (a : Nat) (v : Int) : (s.storeByte a v).fl = s.fl := rfl
@[simp] theorem State.storeByte_running (s : State) (a : Nat) (v : Int) : (s.storeByte a v).running = s.running := rfl
@[simp] theorem State.storeByte_fault (s : State) (a : Nat) (v : Int) : (s.storeByte a v).fault = s.fault := rfl
@[simp] theorem State.storeByte_mem (s : State) (a : Nat) (v : Int) : (s.storeByte a v).mem = Memory.store s.mem a (wrap v) := rfl
@[simp] theorem State.storeByte_out (s : State) (a : Nat) (v : Int) : (s.storeByte a v).out = s.out := rfl
@[simp] theorem State.storeByte_reg (s : State) (a : Nat) (v : Int) (k : RegIndex) : (s.storeByte a v).reg k = s.reg k := rfl
@[simp] theorem State.storeByte_sp (s : State) (a : Nat) (v : Int) : (s.storeByte a v).sp = s.sp := rfl

/-- Two states with the same fields are the same state. -/
theorem State.eq_of_fields {s t : State} (hregs : s.regs = t.regs) (hpc : s.pc = t.pc) (hfl : s.fl = t.fl)
    (hrun : s.running = t.running) (hfault : s.fault = t.fault) (hmem : s.mem = t.mem) (hout : s.out = t.out) : s = t := by
  cases s; cases t; simp_all

end Sys2Proof.Machine
end

