-- ==== Sys2Proof/Laws/Ops.lean ====
section
/-! SUPPORT. One lemma per shared operation that says once everything it can do: operands, registers, memory access, running a
handler, the status. -/

namespace Sys2Proof.Machine

theorem wrap_toNat (v : Int) : ((wrap v).toNat : Int) = v % 256 := by
  simp [wrap, BitVec.toNat_ofInt]
  omega

@[simp] theorem wrap_byte (b : Byte) : wrap b.toNat = b := by
  apply BitVec.eq_of_toNat_eq
  have := wrap_toNat b.toNat
  omega

theorem wrap_nat (n : Nat) : wrap n = BitVec.ofNat 8 n := by
  apply BitVec.eq_of_toNat_eq
  have := wrap_toNat n
  simp only [BitVec.toNat_ofNat]
  omega

@[simp] theorem regByte_toNat (i : RegIndex) : (regByte i).toNat = i.val := by
  simp only [regByte, BitVec.toNat_ofNat]
  omega

theorem regByte_injective {i j : RegIndex} (h : regByte i = regByte j) : i = j := by
  have := congrArg BitVec.toNat h
  simp only [regByte_toNat] at this
  exact Fin.ext this

/-- A byte that names a register is the register's byte. -/
theorem byte_eq_regByte {b : Byte} (h : b.toNat < 8) : b = regByte ⟨b.toNat, h⟩ := by
  apply BitVec.eq_of_toNat_eq
  simp

@[simp] theorem regIdx_regByte (i : RegIndex) : regIdx (regByte i) = .ok i := by
  simp [regIdx]

theorem regIdx_illegal {b : Byte} (h : 8 ≤ b.toNat) : regIdx b = .error ⟨.illegalRegister, b.toNat⟩ := by
  unfold regIdx
  rw [dif_neg (by omega)]

/-- RegIdx answers a register, whose byte the operand is, or raises ILLEGAL_REGISTER with the operand. -/
theorem regIdx_cases (b : Byte) :
    (∃ i, b = regByte i ∧ regIdx b = .ok i) ∨ (8 ≤ b.toNat ∧ regIdx b = .error ⟨.illegalRegister, b.toNat⟩) := by
  by_cases h : b.toNat < 8
  · exact .inl ⟨⟨b.toNat, h⟩, byte_eq_regByte h, by simp [regIdx, h]⟩
  · exact .inr ⟨by omega, regIdx_illegal (by omega)⟩

@[simp] theorem State.setReg_reg (s : State) (i j : RegIndex) (v : Int) :
    (s.setReg i v).reg j = if i = j then wrap v else s.reg j := by
  simp only [State.reg, State.setReg, Fin.getElem_fin, Vector.getElem_set, Fin.ext_iff]

@[simp] theorem State.setSp_reg (s : State) (j : RegIndex) (v : Int) :
    (s.setSp v).reg j = if Config.spIndex = j then wrap v else s.reg j := State.setReg_reg s _ j v

@[simp] theorem State.setSp_sp (s : State) (v : Int) : (s.setSp v).sp = wrap v := by
  simp [State.sp]

/-- A state's registers are determined by reading each of them. -/
theorem State.regs_ext {s t : State} (h : ∀ k, s.reg k = t.reg k) : s.regs = t.regs := by
  apply Vector.ext
  intro k hk
  exact h ⟨k, hk⟩

theorem State.sp_lt (s : State) : s.sp.toNat < Config.memSize := by
  have := s.sp.isLt
  simp only [Config.memSize]
  omega

/-- A stored byte is what its address then reads as, and every other address reads as before. -/
@[simp] theorem State.storeByte_byteAt (s : State) (a b : Nat) (v : Int) :
    (s.storeByte a v).byteAt b = if b = a then wrap v else s.byteAt b :=
  Memory.lookup_store s.mem a b (wrap v)

theorem State.memRead_ok {s : State} {a : Nat} (h : a < Config.memSize) : s.memRead a = .ok (s.byteAt a) := by
  simp [State.memRead, h]

theorem State.memWrite_ok {s : State} {a : Nat} {v : Int} (h : a < Config.memSize) :
    s.memWrite a v = .ok (s.storeByte a v) := by
  simp [State.memWrite, h]

/-- A stack read never raises (R143). -/
@[simp] theorem State.memRead_sp (s : State) : s.memRead s.sp.toNat = .ok (s.byteAt s.sp.toNat) :=
  State.memRead_ok s.sp_lt

/-- A stack write never raises (R143). -/
@[simp] theorem State.memWrite_byte (s : State) (b : Byte) (v : Int) :
    s.memWrite b.toNat v = .ok (s.storeByte b.toNat v) :=
  State.memWrite_ok b.isLt

@[simp] theorem attempt_ok (s t : State) : attempt s (.ok t) = .next t := rfl
@[simp] theorem attempt_error (s : State) (r : Raise) : attempt s (.error r) = .next (s.takeFault r) := rfl

/-- A handler always answers a next state: its own, or the faulted one. -/
theorem attempt_next (s : State) (body : Except Raise State) : ∃ t, attempt s body = .next t := by
  cases body
  · exact ⟨_, rfl⟩
  · exact ⟨_, rfl⟩

theorem State.status_running_iff (s : State) : s.status = .running ↔ s.fault = none ∧ s.running = true := by
  unfold State.status
  cases s.fault <;> cases s.running <;> simp

end Sys2Proof.Machine
end

