-- ==== Sys2Proof/Laws/Exec.lean ====
section
/-! SUPPORT. One lemma per shared shape of a meaning: what it answers for a legal register operand and for an illegal one. The
per-instruction lemmas give each meaning on legal operands as one next state in the model's own operations. -/

namespace Sys2Proof.Machine

/-- A handler that begins with RegIdx of a byte of 8 or more takes ILLEGAL_REGISTER and does nothing else (R142, R144). -/
theorem attempt_regIdx_illegal {s : State} {b : Byte} {k : RegIndex → Except Raise State} (h : 8 ≤ b.toNat) :
    attempt s (regIdx b >>= k) = .next (s.takeFault ⟨.illegalRegister, b.toNat⟩) := by
  rw [regIdx_illegal h]; rfl

/-- A handler that begins with RegIdx of a register's byte goes on with that register. -/
@[simp] theorem attempt_regIdx_legal (s : State) (i : RegIndex) (k : RegIndex → Except Raise State) :
    attempt s (regIdx (regByte i) >>= k) = attempt s (k i) := by
  rw [regIdx_regByte]; rfl

@[simp] theorem State.alu_pc (s : State) (op : AluOp) (i j : RegIndex) : (s.alu op i j).pc = s.pc := by
  cases op <;> rfl
@[simp] theorem State.alu_running (s : State) (op : AluOp) (i j : RegIndex) : (s.alu op i j).running = s.running := by
  cases op <;> rfl
@[simp] theorem State.alu_fault (s : State) (op : AluOp) (i j : RegIndex) : (s.alu op i j).fault = s.fault := by
  cases op <;> rfl
@[simp] theorem State.alu_mem (s : State) (op : AluOp) (i j : RegIndex) : (s.alu op i j).mem = s.mem := by
  cases op <;> rfl
@[simp] theorem State.alu_out (s : State) (op : AluOp) (i j : RegIndex) : (s.alu op i j).out = s.out := by
  cases op <;> rfl

/-- The ALU shape: both registers legal, or the first illegal operand byte is reported (R148). -/
theorem execAlu_cases (op : AluOp) (a b : Byte) (s : State) :
    (∃ i j, a = regByte i ∧ b = regByte j ∧ execAlu op a b s = .next ((s.alu op i j).advance 2)) ∨
      (8 ≤ a.toNat ∧ execAlu op a b s = .next (s.takeFault ⟨.illegalRegister, a.toNat⟩)) ∨
      ∃ i, a = regByte i ∧ 8 ≤ b.toNat ∧ execAlu op a b s = .next (s.takeFault ⟨.illegalRegister, b.toNat⟩) := by
  rcases regIdx_cases a with ⟨i, rfl, hi⟩ | ⟨ha, -⟩
  · rcases regIdx_cases b with ⟨j, rfl, hj⟩ | ⟨hb, -⟩
    · exact .inl ⟨i, j, rfl, rfl, by simp [execAlu]⟩
    · exact .inr (.inr ⟨i, rfl, hb, by rw [execAlu, attempt_regIdx_legal]; exact attempt_regIdx_illegal hb⟩)
  · exact .inr (.inl ⟨ha, attempt_regIdx_illegal ha⟩)

/-- The branch shape: a legal register, taken or not, or ILLEGAL_REGISTER whether or not taken (R101, R102). -/
theorem execBranch_cases (taken : Bool) (r : Byte) (s : State) :
    (∃ i, r = regByte i ∧ execBranch taken r s = .next (if taken then s.jumpTo (s.reg i) else s.advance 1)) ∨
      (8 ≤ r.toNat ∧ execBranch taken r s = .next (s.takeFault ⟨.illegalRegister, r.toNat⟩)) := by
  rcases regIdx_cases r with ⟨i, rfl, hi⟩ | ⟨hr, -⟩
  · exact .inl ⟨i, rfl, by simp [execBranch]⟩
  · exact .inr ⟨hr, attempt_regIdx_illegal hr⟩

theorem exec_add_legal (i j : RegIndex) (s : State) :
    exec (.add (regByte i) (regByte j)) s = .next ((s.alu .add i j).advance 2) := by
  simp [exec, execAdd, execAlu]

theorem exec_mul_legal (i j : RegIndex) (s : State) :
    exec (.mul (regByte i) (regByte j)) s = .next ((s.alu .mul i j).advance 2) := by
  simp [exec, execMul, execAlu]

theorem exec_cmp_legal (i j : RegIndex) (s : State) :
    exec (.cmp (regByte i) (regByte j)) s = .next ((s.alu .cmp i j).advance 2) := by
  simp [exec, execCmp, execAlu]

/-- The state in which PUSH and CALL have decremented SP and stored a value there, no pc change yet. -/
def State.pushed (s : State) (v : State → Int) : State :=
  let t := s.setSp (s.sp.toNat - 1)
  t.storeByte t.sp.toNat (v t)

@[simp] theorem State.pushed_pc (s : State) (v : State → Int) : (s.pushed v).pc = s.pc := rfl
@[simp] theorem State.pushed_fl (s : State) (v : State → Int) : (s.pushed v).fl = s.fl := rfl
@[simp] theorem State.pushed_running (s : State) (v : State → Int) : (s.pushed v).running = s.running := rfl
@[simp] theorem State.pushed_fault (s : State) (v : State → Int) : (s.pushed v).fault = s.fault := rfl
@[simp] theorem State.pushed_out (s : State) (v : State → Int) : (s.pushed v).out = s.out := rfl

theorem State.pushed_reg (s : State) (v : State → Int) (k : RegIndex) :
    (s.pushed v).reg k = if Config.spIndex = k then wrap (s.sp.toNat - 1) else s.reg k := by
  simp [State.pushed]

theorem State.pushed_sp (s : State) (v : State → Int) : (s.pushed v).sp = wrap (s.sp.toNat - 1) := by
  simp [State.pushed]

theorem State.pushed_byteAt (s : State) (v : State → Int) (a : Nat) :
    (s.pushed v).byteAt a =
      if a = (wrap (s.sp.toNat - 1)).toNat then wrap (v (s.setSp (s.sp.toNat - 1))) else s.byteAt a := by
  simp [State.pushed]

theorem exec_push_legal (i : RegIndex) (s : State) :
    exec (.push (regByte i)) s = .next ((s.pushed fun t => (t.reg i).toNat).advance 1) := by
  simp [exec, execPush, State.pushed]

theorem exec_call_legal (i : RegIndex) (s : State) :
    exec (.call (regByte i)) s =
      .next ((s.pushed fun _ => (s.pc + 2 : Nat)).jumpTo ((s.setSp (s.sp.toNat - 1)).reg i)) := by
  simp only [exec, execCall, attempt_regIdx_legal, State.memWrite_byte, except_bind_ok, except_pure, attempt_ok]
  rfl

theorem exec_pop_legal (i : RegIndex) (s : State) :
    exec (.pop (regByte i)) s =
      .next (((s.setReg i (s.byteAt s.sp.toNat).toNat).setSp ((s.setReg i (s.byteAt s.sp.toNat).toNat).sp.toNat + 1)).advance 1) := by
  simp [exec, execPop]

theorem exec_ret (s : State) :
    exec .ret s = .next ((s.setSp (s.sp.toNat + 1)).jumpTo (s.byteAt s.sp.toNat)) := by
  simp [exec, execRet]

theorem exec_jmp_legal (i : RegIndex) (s : State) : exec (.jmp (regByte i)) s = .next (s.jumpTo (s.reg i)) := by
  simp [exec, execJmp, execBranch]

theorem exec_jeq_legal (i : RegIndex) (s : State) :
    exec (.jeq (regByte i)) s = .next (if s.fl.e then s.jumpTo (s.reg i) else s.advance 1) := by
  simp [exec, execJeq, execBranch]

theorem exec_jne_legal (i : RegIndex) (s : State) :
    exec (.jne (regByte i)) s = .next (if s.fl.e then s.advance 1 else s.jumpTo (s.reg i)) := by
  cases h : s.fl.e <;> simp [exec, execJne, execBranch, h]

theorem exec_ldi_legal (i : RegIndex) (v : Byte) (s : State) :
    exec (.ldi (regByte i) v) s = .next ((s.setReg i v.toNat).advance 2) := by
  simp [exec, execLdi, immediate]

theorem exec_prn_legal (i : RegIndex) (s : State) :
    exec (.prn (regByte i)) s = .next ((s.emit (s.reg i)).advance 1) := by
  simp [exec, execPrn]

theorem exec_hlt (s : State) : exec .hlt s = .next (s.halt.advance 0) := rfl

theorem exec_unrecognized (op : Byte) (s : State) : exec (.unrecognized op) s = .next (s.advance 0) := rfl

/-- The own effect of each instruction on legal register operands, from a state to the next. -/
inductive Effect : Instr → State → State → Prop
  | hlt (s : State) : Effect .hlt s (s.halt.advance 0)
  | ret (s : State) : Effect .ret s ((s.setSp (s.sp.toNat + 1)).jumpTo (s.byteAt s.sp.toNat))
  | push (i : RegIndex) (s : State) : Effect (.push (regByte i)) s ((s.pushed fun t => (t.reg i).toNat).advance 1)
  | pop (i : RegIndex) (s : State) :
      Effect (.pop (regByte i)) s
        (((s.setReg i (s.byteAt s.sp.toNat).toNat).setSp ((s.setReg i (s.byteAt s.sp.toNat).toNat).sp.toNat + 1)).advance 1)
  | prn (i : RegIndex) (s : State) : Effect (.prn (regByte i)) s ((s.emit (s.reg i)).advance 1)
  | call (i : RegIndex) (s : State) :
      Effect (.call (regByte i)) s
        ((s.pushed fun _ => (s.pc + 2 : Nat)).jumpTo ((s.setSp (s.sp.toNat - 1)).reg i))
  | jmp (i : RegIndex) (s : State) : Effect (.jmp (regByte i)) s (s.jumpTo (s.reg i))
  | jeq (i : RegIndex) (s : State) : Effect (.jeq (regByte i)) s (if s.fl.e then s.jumpTo (s.reg i) else s.advance 1)
  | jne (i : RegIndex) (s : State) : Effect (.jne (regByte i)) s (if s.fl.e then s.advance 1 else s.jumpTo (s.reg i))
  | ldi (i : RegIndex) (v : Byte) (s : State) : Effect (.ldi (regByte i) v) s ((s.setReg i v.toNat).advance 2)
  | add (i j : RegIndex) (s : State) : Effect (.add (regByte i) (regByte j)) s ((s.alu .add i j).advance 2)
  | mul (i j : RegIndex) (s : State) : Effect (.mul (regByte i) (regByte j)) s ((s.alu .mul i j).advance 2)
  | cmp (i j : RegIndex) (s : State) : Effect (.cmp (regByte i) (regByte j)) s ((s.alu .cmp i j).advance 2)
  | unrecognized (op : Byte) (s : State) : Effect (.unrecognized op) s (s.advance 0)

/-- An instruction that has its own effect answers it. -/
theorem exec_of_effect {i : Instr} {s t : State} (h : Effect i s t) : exec i s = .next t := by
  cases h
  case hlt | unrecognized => rfl
  case ret => exact exec_ret s
  case push k => exact exec_push_legal k s
  case pop k => exact exec_pop_legal k s
  case prn k => exact exec_prn_legal k s
  case call k => exact exec_call_legal k s
  case jmp k => exact exec_jmp_legal k s
  case jeq k => exact exec_jeq_legal k s
  case jne k => exact exec_jne_legal k s
  case ldi k v => exact exec_ldi_legal k v s
  case add k l => exact exec_add_legal k l s
  case mul k l => exact exec_mul_legal k l s
  case cmp k l => exact exec_cmp_legal k l s

/-- Everything an instruction can answer: its own effect, all register operands being legal, or, in every state, that state with
ILLEGAL_REGISTER recorded for one and the same of its register operand bytes. -/
theorem exec_cases (i : Instr) :
    (i.registersInRange = true ∧ ∀ s, ∃ t, exec i s = .next t ∧ Effect i s t) ∨
      (i.registersInRange = false ∧
        ∃ b : Byte, 8 ≤ b.toNat ∧ ∀ s, exec i s = .next (s.takeFault ⟨.illegalRegister, b.toNat⟩)) := by
  have legal : ∀ {i : Instr} {f : State → State}, i.registersInRange = true → (∀ s, Effect i s (f s)) →
      i.registersInRange = true ∧ ∀ s, ∃ t, exec i s = .next t ∧ Effect i s t :=
    fun hr he => ⟨hr, fun s => ⟨_, exec_of_effect (he s), he s⟩⟩
  cases i
  case hlt => exact .inl (legal rfl .hlt)
  case ret => exact .inl (legal rfl .ret)
  case unrecognized op => exact .inl (legal rfl (.unrecognized op))
  case ldi r v =>
    rcases regIdx_cases r with ⟨k, rfl, -⟩ | ⟨hr, -⟩
    · exact .inl (legal (by simp [Instr.registersInRange, Instr.regOperands]) (.ldi k v))
    · exact .inr ⟨by simp [Instr.registersInRange, Instr.regOperands]; omega, r, hr, fun s => attempt_regIdx_illegal hr⟩
  case add a b | mul a b | cmp a b =>
    rcases regIdx_cases a with ⟨k, rfl, -⟩ | ⟨ha, -⟩
    · rcases regIdx_cases b with ⟨l, rfl, -⟩ | ⟨hb, -⟩
      · exact .inl (legal (by simp [Instr.registersInRange, Instr.regOperands]) (by intro s; constructor))
      · refine .inr ⟨by simp [Instr.registersInRange, Instr.regOperands]; omega, b, hb, fun s => ?_⟩
        exact (attempt_regIdx_legal s k _).trans (attempt_regIdx_illegal hb)
    · exact .inr ⟨by simp [Instr.registersInRange, Instr.regOperands]; omega, a, ha, fun s => attempt_regIdx_illegal ha⟩
  all_goals
    rename_i r
    rcases regIdx_cases r with ⟨k, rfl, -⟩ | ⟨hr, -⟩
    · exact .inl (legal (by simp [Instr.registersInRange, Instr.regOperands]) (by intro s; constructor))
    · exact .inr ⟨by simp [Instr.registersInRange, Instr.regOperands]; omega, r, hr, fun s => attempt_regIdx_illegal hr⟩

/-- The inversion of `exec`: what is known of a next state it answered. -/
theorem exec_next_cases {i : Instr} {s t : State} (h : exec i s = .next t) :
    (i.registersInRange = true ∧ Effect i s t) ∨
      (i.registersInRange = false ∧ ∃ b : Byte, 8 ≤ b.toNat ∧ t = s.takeFault ⟨.illegalRegister, b.toNat⟩) := by
  rcases exec_cases i with ⟨hr, hs⟩ | ⟨hr, b, hb, hs⟩
  · obtain ⟨u, hu, he⟩ := hs s
    rw [hu] at h
    cases h
    exact .inl ⟨hr, he⟩
  · rw [hs s] at h
    cases h
    exact .inr ⟨hr, b, hb, rfl⟩

end Sys2Proof.Machine
end

