-- ==== Sys2Proof/Laws/PerInstr.lean ====
section
/-! SUPPORT. The statements said of every instruction, one lemma per constructor. EncodeLength: an instruction's encoding has the
length its opcode alone determines, 1 to 3 bytes (R60, R69). -/

namespace Sys2Proof.Laws.EncodeLength

/-- The encoding of `i` is as long as the opcode says, and between 1 and 3 bytes. -/
def Statement (i : Sys2Proof.Instr) : Prop :=
  (Sys2Proof.encode i).length = i.length ∧ 1 ≤ i.length ∧ i.length ≤ Sys2Proof.Config.maxLength

theorem of_length {i : Sys2Proof.Instr} (n : Nat) (hi : i.length = n) (he : (Sys2Proof.encode i).length = n) (h1 : 1 ≤ n)
    (h3 : n ≤ Sys2Proof.Config.maxLength) : Statement i := by
  unfold Statement
  rw [hi, he]
  exact ⟨rfl, h1, h3⟩

theorem hlt : Statement .hlt := of_length 1 rfl rfl (by decide) (by decide)
theorem ret : Statement .ret := of_length 1 rfl rfl (by decide) (by decide)
theorem push (r : Sys2Proof.Byte) : Statement (.push r) := of_length 2 rfl rfl (by decide) (by decide)
theorem pop (r : Sys2Proof.Byte) : Statement (.pop r) := of_length 2 rfl rfl (by decide) (by decide)
theorem prn (r : Sys2Proof.Byte) : Statement (.prn r) := of_length 2 rfl rfl (by decide) (by decide)
theorem call (r : Sys2Proof.Byte) : Statement (.call r) := of_length 2 rfl rfl (by decide) (by decide)
theorem jmp (r : Sys2Proof.Byte) : Statement (.jmp r) := of_length 2 rfl rfl (by decide) (by decide)
theorem jeq (r : Sys2Proof.Byte) : Statement (.jeq r) := of_length 2 rfl rfl (by decide) (by decide)
theorem jne (r : Sys2Proof.Byte) : Statement (.jne r) := of_length 2 rfl rfl (by decide) (by decide)
theorem ldi (r v : Sys2Proof.Byte) : Statement (.ldi r v) := of_length 3 rfl rfl (by decide) (by decide)
theorem add (a b : Sys2Proof.Byte) : Statement (.add a b) := of_length 3 rfl rfl (by decide) (by decide)
theorem mul (a b : Sys2Proof.Byte) : Statement (.mul a b) := of_length 3 rfl rfl (by decide) (by decide)
theorem cmp (a b : Sys2Proof.Byte) : Statement (.cmp a b) := of_length 3 rfl rfl (by decide) (by decide)
theorem unrecognized (op : Sys2Proof.Byte) : Statement (.unrecognized op) := of_length 1 rfl rfl (by decide) (by decide)

end Sys2Proof.Laws.EncodeLength
end

