-- ==== Sys2Proof/Laws/Step.lean ====
section
/-! SUPPORT. What fetching and a step can do, said once each. -/

namespace Sys2Proof.Machine

/-- What a step that answers a next state did: in a Running state it fetched an instruction and ran it, or a fetch raised. -/
theorem step_next_cases {s t : State} (h : step s = .next t) :
    s.status = .running ∧
      ((∃ i, s.fetchInstr = .ok i ∧ exec i s = .next t) ∨ ∃ r, s.fetchInstr = .error r ∧ t = s.takeFault r) := by
  unfold step at h
  cases hs : s.status with
  | running =>
    refine ⟨rfl, ?_⟩
    simp only [hs] at h
    cases hf : s.fetchInstr with
    | ok i => simp only [hf] at h; exact .inl ⟨i, rfl, h⟩
    | error r => simp only [hf, Host.Outcome.next.injEq] at h; exact .inr ⟨r, rfl, h.symm⟩
  | halted => simp [hs] at h
  | faulted r => simp [hs] at h

theorem step_of_fetch_ok {s : State} {i : Instr} (hs : s.status = .running) (hf : s.fetchInstr = .ok i) :
    step s = exec i s := by
  simp [step, hs, hf]

theorem step_of_fetch_error {s : State} {r : Raise} (hs : s.status = .running) (hf : s.fetchInstr = .error r) :
    step s = .next (s.takeFault r) := by
  simp [step, hs, hf]

/-- A fetch of one byte: the byte in memory, below 256, or MEM_BOUNDS with the address (R122). -/
theorem fetchByte_cases (s : State) (k : Nat) :
    (s.pc + k < Config.memSize ∧ s.fetchByte k = .ok (s.byteAt (s.pc + k))) ∨
      (Config.memSize ≤ s.pc + k ∧ s.fetchByte k = .error ⟨.memBounds, s.pc + k⟩) := by
  unfold State.fetchByte State.memRead
  split
  · exact .inl ⟨‹_›, rfl⟩
  · exact .inr ⟨by omega, rfl⟩

theorem fetchByte_ok_iff {s : State} {k : Nat} {b : Byte} :
    s.fetchByte k = .ok b ↔ s.pc + k < Config.memSize ∧ b = s.byteAt (s.pc + k) := by
  rcases fetchByte_cases s k with ⟨h, e⟩ | ⟨h, e⟩ <;> rw [e]
  · exact ⟨fun q => ⟨h, (Except.ok.inj q).symm⟩, fun q => by rw [q.2]⟩
  · exact ⟨fun q => (nomatch q), fun q => absurd q.1 (Nat.not_lt.mpr h)⟩

theorem fetchByte_error_iff {s : State} {k : Nat} {r : Raise} :
    s.fetchByte k = .error r ↔ Config.memSize ≤ s.pc + k ∧ r = ⟨.memBounds, s.pc + k⟩ := by
  rcases fetchByte_cases s k with ⟨h, e⟩ | ⟨h, e⟩ <;> rw [e]
  · exact ⟨fun q => (nomatch q), fun q => absurd h (Nat.not_lt.mpr q.1)⟩
  · exact ⟨fun q => ⟨h, (Except.error.inj q).symm⟩, fun q => by rw [q.2]⟩

/-- What fetching can answer: a well-formed instruction whose bytes all lie in memory at the pc, and that is all of it. -/
theorem fetchInstr_ok_iff {s : State} {i : Instr} :
    s.fetchInstr = .ok i ↔
      i.wellFormed = true ∧ ∀ k b, (encode i)[k]? = some b → s.pc + k < Config.memSize ∧ b = s.byteAt (s.pc + k) := by
  unfold State.fetchInstr
  rw [decodeFrom_eq_ok_iff]
  simp only [GivesEncoding, fetchByte_ok_iff]

/-- A raise of the fetch: MEM_BOUNDS at the pc itself, or at 256 for an operand byte of an instruction that starts below (R143). -/
theorem fetchInstr_error {s : State} {r : Raise} (h : s.fetchInstr = .error r) :
    r.cause = .memBounds ∧ ((256 ≤ s.pc ∧ r.info = s.pc) ∨ ((s.pc = 254 ∨ s.pc = 255) ∧ r.info = 256)) := by
  rcases decodeFrom_error h with h0 | ⟨o, h0, ⟨-, h1⟩ | ⟨-, ⟨a, h1⟩, h2⟩⟩
  · obtain ⟨hk, rfl⟩ := fetchByte_error_iff.mp h0
    simp only [Config.memSize] at hk
    exact ⟨rfl, .inl ⟨by omega, rfl⟩⟩
  · have := (fetchByte_ok_iff.mp h0).1
    obtain ⟨hk, rfl⟩ := fetchByte_error_iff.mp h1
    simp only [Config.memSize] at hk this
    refine ⟨rfl, .inr ⟨by omega, ?_⟩⟩
    show s.pc + 1 = 256
    omega
  · have := (fetchByte_ok_iff.mp h1).1
    obtain ⟨hk, rfl⟩ := fetchByte_error_iff.mp h2
    simp only [Config.memSize] at hk this
    refine ⟨rfl, .inr ⟨by omega, ?_⟩⟩
    show s.pc + 2 = 256
    omega

end Sys2Proof.Machine
end

