-- ==== Sys2Proof/Machine/Asm.lean ====
section
/-! DEFINITION. The assembly line of R70: MNEMONIC [op1[, op2]], registers R0..R7 with SP for R7, immediates 0..255 in decimal,
0x hexadecimal or 0b binary, operands in encoding order. Text only; nothing of the machine depends on it. -/

namespace Sys2Proof.Machine

/-- The mnemonic of each opcode (R65). -/
def opcodeMnemonic : Opcode → List Char
  | .hlt => ['H', 'L', 'T']
  | .ret => ['R', 'E', 'T']
  | .push => ['P', 'U', 'S', 'H']
  | .pop => ['P', 'O', 'P']
  | .prn => ['P', 'R', 'N']
  | .call => ['C', 'A', 'L', 'L']
  | .jmp => ['J', 'M', 'P']
  | .jeq => ['J', 'E', 'Q']
  | .jne => ['J', 'N', 'E']
  | .ldi => ['L', 'D', 'I']
  | .add => ['A', 'D', 'D']
  | .mul => ['M', 'U', 'L']
  | .cmp => ['C', 'M', 'P']

/-- The opcode a mnemonic names. -/
def mnemonicOpcode (cs : List Char) : Option Opcode :=
  Opcode.all.find? fun o => opcodeMnemonic o == cs

/-- A digit's value in a base of at most 16. -/
def digitValue (base : Nat) (c : Char) : Option Nat :=
  let n := c.toNat
  let v :=
    if 48 ≤ n ∧ n ≤ 57 then n - 48
    else if 65 ≤ n ∧ n ≤ 70 then n - 55
    else if 97 ≤ n ∧ n ≤ 102 then n - 87
    else base
  if v < base then some v else none

/-- A run of at least one digit, on top of the value read so far. -/
def digitsValue (base acc : Nat) : List Char → Option Nat
  | [] => none
  | [c] => (digitValue base c).map fun d => acc * base + d
  | c :: cs =>
    match digitValue base c with
    | some d => digitsValue base (acc * base + d) cs
    | none => none

/-- An immediate operand, 0..255 (R70). -/
def asmImmediate (cs : List Char) : Option Byte :=
  let value :=
    match cs with
    | '0' :: 'x' :: ds => digitsValue 16 0 ds
    | '0' :: 'b' :: ds => digitsValue 2 0 ds
    | ds => digitsValue 10 0 ds
  match value with
  | some n => if n < 256 then some (BitVec.ofNat 8 n) else none
  | none => none

/-- A register operand: R0..R7, or SP for R7 (R70). -/
def asmRegister (cs : List Char) : Option Byte :=
  match cs with
  | ['S', 'P'] => some 7#8
  | ['R', c] =>
    match digitValue 10 c with
    | some n => if n < 8 then some (BitVec.ofNat 8 n) else none
    | none => none
  | _ => none

/-- The pieces between commas. -/
def splitCommas : List Char → List (List Char)
  | [] => [[]]
  | c :: cs =>
    match c == ',', splitCommas cs with
    | true, pieces => [] :: pieces
    | false, [] => [[c]]
    | false, piece :: pieces => (c :: piece) :: pieces

/-- A piece without the spaces around it. -/
def trimSpaces (cs : List Char) : List Char :=
  ((cs.dropWhile (· == ' ')).reverse.dropWhile (· == ' ')).reverse

/-- The operand texts after the mnemonic; none when only spaces follow. -/
def asmOperands (cs : List Char) : List (List Char) :=
  if trimSpaces cs = [] then [] else (splitCommas cs).map trimSpaces

/-- One register operand. -/
def asmUnary (k : Byte → Instr) (ops : List (List Char)) : Option Instr :=
  match ops with
  | [r] => (asmRegister r).map k
  | _ => none

/-- A register operand and a second operand read by `second`. -/
def asmBinary (k : Byte → Byte → Instr) (second : List Char → Option Byte) (ops : List (List Char)) : Option Instr :=
  match ops with
  | [a, b] =>
    match asmRegister a, second b with
    | some x, some y => some (k x y)
    | _, _ => none
  | _ => none

/-- No operand. -/
def asmNullary (i : Instr) (ops : List (List Char)) : Option Instr :=
  if ops = [] then some i else none

/-- The instruction an opcode and its operand texts stand for, operands in encoding order (R70). -/
def asmInstr (o : Opcode) (ops : List (List Char)) : Option Instr :=
  match o with
  | .hlt => asmNullary .hlt ops
  | .ret => asmNullary .ret ops
  | .push => asmUnary .push ops
  | .pop => asmUnary .pop ops
  | .prn => asmUnary .prn ops
  | .call => asmUnary .call ops
  | .jmp => asmUnary .jmp ops
  | .jeq => asmUnary .jeq ops
  | .jne => asmUnary .jne ops
  | .ldi => asmBinary .ldi asmImmediate ops
  | .add => asmBinary .add asmRegister ops
  | .mul => asmBinary .mul asmRegister ops
  | .cmp => asmBinary .cmp asmRegister ops

/-- One assembly line (R70). -/
def assemble (line : List Char) : Option Instr :=
  let mnemonic := line.takeWhile (· != ' ')
  match mnemonicOpcode mnemonic with
  | some o => asmInstr o (asmOperands (line.drop mnemonic.length))
  | none => none

end Sys2Proof.Machine
end

