-- ==== Sys2Proof/Tests/Slice0.lean ====
section
/-! SUPPORT. Tests on fixed values. Expected results are the spec's own: the opcode map of R65, the ranges of R66, and the
single-step vectors of 95_test_vectors.md (cited by their id), never the model's output. Then a witness for the hypotheses of each
statement that has some. -/

namespace Sys2Proof.Tests

open Sys2Proof Sys2Proof.Machine

/-- The reset state with bytes placed at `p` and the pc there. -/
def loaded (p : Nat) (bytes : List Byte) : State :=
  placeBytes { State.reset with pc := p } p bytes

/-- The next state an outcome holds. -/
def nextOf (o : Host.Outcome State Fault Refusal) : Option State :=
  match o with
  | .next t => some t
  | .fault _ => none
  | .refused _ => none

/-- One view of the state one step after `s`. -/
def after {α : Type} (s : State) (view : State → α) : Option α := (nextOf (step s)).map view

/-! ### Well-formedness: each check refuses an ill-formed term -/

theorem test_wellFormed_refuses_an_opcode_as_unrecognized : (Instr.unrecognized 0x45#8).wellFormed = false := by decide
theorem test_wellFormed_accepts_a_gap_byte : (Instr.unrecognized 0xA1#8).wellFormed = true := by decide
theorem test_registersInRange_refuses_first_operand : (Instr.add 8#8 0#8).registersInRange = false := by decide
theorem test_registersInRange_refuses_second_operand : (Instr.cmp 0#8 0xFF#8).registersInRange = false := by decide
theorem test_registersInRange_ignores_the_immediate : (Instr.ldi 7#8 0xFF#8).registersInRange = true := by decide

/-! ### Decoding of words written out from the binary column of R65 -/

theorem test_decode_hlt : decode [0b00000001#8] = .ok (.hlt, []) := by rfl
theorem test_decode_ret : decode [0b00010001#8, 9#8] = .ok (.ret, [9#8]) := by rfl
theorem test_decode_push : decode [0b01000101#8, 1#8] = .ok (.push 1#8, []) := by rfl
theorem test_decode_pop : decode [0b01000110#8, 2#8] = .ok (.pop 2#8, []) := by rfl
theorem test_decode_prn : decode [0b01000111#8, 3#8] = .ok (.prn 3#8, []) := by rfl
theorem test_decode_call : decode [0b01010000#8, 4#8] = .ok (.call 4#8, []) := by rfl
theorem test_decode_jmp : decode [0b01010100#8, 5#8] = .ok (.jmp 5#8, []) := by rfl
theorem test_decode_jeq : decode [0b01010101#8, 6#8] = .ok (.jeq 6#8, []) := by rfl
theorem test_decode_jne : decode [0b01010110#8, 7#8] = .ok (.jne 7#8, []) := by rfl
theorem test_decode_ldi : decode [0b10000010#8, 0#8, 8#8] = .ok (.ldi 0#8 8#8, []) := by rfl
theorem test_decode_add : decode [0b10100000#8, 1#8, 2#8] = .ok (.add 1#8 2#8, []) := by rfl
theorem test_decode_mul : decode [0b10100010#8, 1#8, 2#8] = .ok (.mul 1#8 2#8, []) := by rfl
theorem test_decode_cmp : decode [0b10100111#8, 1#8, 2#8] = .ok (.cmp 1#8 2#8, []) := by rfl
theorem test_decode_unrecognized : decode [0x4F#8, 1#8] = .ok (.unrecognized 0x4F#8, [1#8]) := by rfl
theorem test_decode_nothing : decode [] = .error (.missingByte 0) := by rfl
theorem test_decode_truncated : decode [0xA0#8, 1#8] = .error (.missingByte 2) := by rfl
theorem test_243_bytes_are_unrecognized :
    ((List.range 256).filter fun n => unrecognizedByte (BitVec.ofNat 8 n)).length = 243 := by decide +kernel

/-! ### The vectors of 95_test_vectors.md -/

/-- A1. -/
theorem test_add_wraps :
    after ((((loaded 0 [0xA0#8, 0#8, 1#8]).setReg 0 0xC8).setReg 1 0x64)) (fun t => (t.reg 0, t.reg 1, t.pc)) =
      some (0x2C#8, 0x64#8, 3) := by decide
/-- A15. -/
theorem test_add_reports_the_first_bad_register :
    after (loaded 0 [0xA0#8, 0x09#8, 0x0A#8]) (fun t => (t.fault, t.pc)) = some (some ⟨.illegalRegister, 0x09, 0⟩, 0) := by decide
/-- A8. -/
theorem test_mul_keeps_the_low_byte :
    after ((((loaded 0 [0xA2#8, 0#8, 1#8]).setReg 0 0xFF).setReg 1 0xFF)) (fun t => (t.reg 0, t.pc)) = some (0x01#8, 3) := by decide
/-- A11. -/
theorem test_mul_squares :
    after ((loaded 0 [0xA2#8, 3#8, 3#8]).setReg 3 0x14) (fun t => t.reg 3) = some 0x90#8 := by decide
/-- CM4. -/
theorem test_cmp_is_unsigned :
    after ((((loaded 0 [0xA7#8, 0#8, 1#8]).setReg 0 0x80).setReg 1 0x7F)) (fun t => t.fl) = some ⟨false, false, true⟩ := by decide
/-- CM8. -/
theorem test_cmp_fault_keeps_the_flags :
    after { loaded 0 [0xA7#8, 0#8, 9#8] with fl := ⟨false, true, false⟩ } (fun t => (t.fl, t.fault)) =
      some (⟨false, true, false⟩, some ⟨.illegalRegister, 9, 0⟩) := by decide
/-- S2. -/
theorem test_push_wraps_below_zero :
    after ((((loaded 0 [0x45#8, 1#8]).setReg 1 0x33).setReg 7 0x00)) (fun t => (t.sp, t.byteAt 0xFF, t.pc)) =
      some (0xFF#8, 0x33#8, 2) := by decide
/-- S3. -/
theorem test_push_r7_stores_the_new_sp :
    after (loaded 0 [0x45#8, 7#8]) (fun t => (t.sp, t.byteAt 0xF3)) = some (0xF3#8, 0xF3#8) := by decide
/-- S4. -/
theorem test_pop_does_not_clear :
    after (placeBytes ((loaded 0 [0x46#8, 1#8]).setReg 7 0xF3) 0xF3 [0x2A#8]) (fun t => (t.reg 1, t.sp, t.byteAt 0xF3)) =
      some (0x2A#8, 0xF4#8, 0x2A#8) := by decide
/-- S7. -/
theorem test_pop_r7_increments_the_popped_value :
    after (placeBytes ((loaded 0 [0x46#8, 7#8]).setReg 7 0xF3) 0xF3 [0x10#8]) (fun t => t.sp) = some 0x11#8 := by decide
/-- S9. -/
theorem test_call_at_254_stores_zero :
    after ((loaded 0xFE [0x50#8, 1#8]).setReg 1 0x40) (fun t => (t.sp, t.byteAt 0xF3, t.pc)) =
      some (0xF3#8, 0x00#8, 0x40) := by decide
/-- S10. -/
theorem test_call_r7_jumps_to_the_new_sp :
    after (loaded 0x20 [0x50#8, 7#8]) (fun t => (t.byteAt 0xF3, t.pc)) = some (0x22#8, 0xF3) := by decide
/-- S12. -/
theorem test_ret_pops_the_pc :
    after (placeBytes ((loaded 0x30 [0x11#8]).setReg 7 0xF3) 0xF3 [0x0B#8]) (fun t => (t.sp, t.pc)) =
      some (0xF4#8, 0x0B) := by decide
/-- S13. -/
theorem test_ret_wraps_sp :
    after (placeBytes ((loaded 0x30 [0x11#8]).setReg 7 0xFF) 0xFF [0x05#8]) (fun t => (t.sp, t.pc)) = some (0x00#8, 0x05) := by decide
/-- B1. -/
theorem test_jmp_reads_a_register : after ((loaded 0 [0x54#8, 3#8]).setReg 3 0x0F) (fun t => t.pc) = some 0x0F := by decide
/-- B11. -/
theorem test_jmp_takes_any_byte : after ((loaded 0 [0x54#8, 0#8]).setReg 0 0xFF) (fun t => t.pc) = some 0xFF := by decide
/-- B3. -/
theorem test_jeq_taken :
    after { (loaded 0x12 [0x55#8, 4#8]).setReg 4 0x1B with fl := ⟨true, false, false⟩ } (fun t => t.pc) = some 0x1B := by decide
/-- B10. -/
theorem test_jeq_checks_its_register_untaken :
    after { loaded 0x12 [0x55#8, 0x0C#8] with fl := ⟨false, false, true⟩ } (fun t => (t.fault, t.pc)) =
      some (some ⟨.illegalRegister, 0x0C, 0x12⟩, 0x12) := by decide
/-- B6. -/
theorem test_jne_taken :
    after { (loaded 0x0E [0x56#8, 2#8]).setReg 2 0x11 with fl := ⟨false, true, false⟩ } (fun t => t.pc) = some 0x11 := by decide
/-- B8. -/
theorem test_jne_not_taken :
    after { (loaded 0x0E [0x56#8, 2#8]).setReg 2 0x11 with fl := ⟨true, false, false⟩ } (fun t => t.pc) = some 0x10 := by decide
/-- D2. -/
theorem test_ldi_does_not_extend : after (loaded 0 [0x82#8, 3#8, 0xFF#8]) (fun t => (t.reg 3, t.pc)) = some (0xFF#8, 3) := by decide
/-- D5. -/
theorem test_ldi_over_the_end_of_memory :
    after (loaded 0xFE [0x82#8, 0#8]) (fun t => (t.fault, t.pc)) = some (some ⟨.memBounds, 0x100, 0xFE⟩, 0xFE) := by decide
/-- D7. -/
theorem test_prn_is_unsigned : after ((loaded 0 [0x47#8, 3#8]).setReg 3 0xFF) (fun t => (t.out, t.pc)) = some ([0xFF#8], 2) := by decide
/-- D8. -/
theorem test_prn_fault_emits_nothing :
    after (loaded 0 [0x47#8, 0x10#8]) (fun t => (t.out, t.fault)) = some ([], some ⟨.illegalRegister, 0x10, 0⟩) := by decide
/-- D9. -/
theorem test_hlt_clears_running : after (loaded 5 [0x01#8]) (fun t => (t.running, t.pc)) = some (false, 6) := by decide
/-- D10. -/
theorem test_hlt_at_255 :
    after (loaded 0xFF [0x01#8]) (fun t => (t.running, t.pc, t.fault)) = some (false, 0x100, none) := by decide
/-- U2. -/
theorem test_unrecognized_byte_is_one_byte_long : after (loaded 3 [0x4F#8]) (fun t => t.pc) = some 4 := by decide
/-- U5. -/
theorem test_unrecognized_byte_at_255 : after (loaded 0xFF [0xFF#8]) (fun t => (t.pc, t.fault)) = some (0x100, none) := by decide
/-- U6. -/
theorem test_fetch_at_256_faults :
    after { State.reset with pc := 0x100 } (fun t => t.fault) = some (some ⟨.memBounds, 0x100, 0x100⟩) := by decide
/-- U7. -/
theorem test_halted_has_no_step : step { State.reset with running := false } = .fault .halted := by rfl
/-- U8. -/
theorem test_faulted_has_no_step :
    step { State.reset with fault := some ⟨.memBounds, 0x100, 0x100⟩ } = .fault (.faulted ⟨.memBounds, 0x100, 0x100⟩) := by rfl

/-! ### The host's side -/

/-- R32: bit 2 = L, bit 1 = G, bit 0 = E. -/
theorem test_packed_flags :
    [(⟨true, false, false⟩ : Flags), ⟨false, true, false⟩, ⟨false, false, true⟩].map Flags.toByte = [1#8, 4#8, 2#8] := by decide
/-- E8: the sink shows the line 15. -/
theorem test_sink_line : sinkText [15#8] = "15\n" := by rfl
/-- P1: the image of `LDI R0,8; PRN R0; HLT` is at 0. -/
theorem test_load :
    ((boot .allFalse [] [0x82, 0, 8, 0x47, 0, 1]).map fun s => (s.byteAt 0, s.byteAt 2, s.byteAt 5, s.pc)) =
      some (0x82#8, 8#8, 1#8, 0) := by decide
/-- R159: an image of 257 bytes does not load. -/
theorem test_load_refuses_257_bytes : boot .allFalse [] (List.replicate 257 0) = none := by
  unfold boot State.load
  rw [if_neg (by rw [List.length_replicate]; decide)]
/-- R65's table words at reset: the first step runs them (here ADD R0,R1). -/
theorem test_withFetchWord : after (State.reset.withFetchWord 24 0x0100A0) (fun t => t.pc) = some 3 := by decide
/-- R70: operands in encoding order, SP for R7, immediates 0..255 in three bases; R71's and P5's spellings. -/
theorem test_assemble_add : assemble ['A', 'D', 'D', ' ', 'R', '1', ',', ' ', 'R', '2'] = some (.add 1#8 2#8) := by decide
theorem test_assemble_ldi_sp :
    assemble ['L', 'D', 'I', ' ', 'S', 'P', ',', '0', 'x', '8', '0'] = some (.ldi 7#8 0x80#8) := by decide
theorem test_assemble_hlt : assemble ['H', 'L', 'T'] = some .hlt := by decide
theorem test_assemble_refuses_256 : assemble ['L', 'D', 'I', ' ', 'R', '0', ',', '2', '5', '6'] = none := by decide

/-! ### Witnesses: a concrete state and operands that meet all hypotheses of each statement that has some -/

theorem witness_OpcodeMapIsTheSpecTable : (Instr.ldi 0#8 0#8).opcode = some .ldi := rfl
theorem witness_DecodeLooksUpTheWholeOpcodeByte :
    (∀ o : Opcode, 0xFF#8 ≠ o.byte) ∧ Opcode.add.operandCount ≤ [1#8, 2#8].length ∧
      [1#8].length < Opcode.add.operandCount ∧ Opcode.hlt.operandCount ≤ ([] : List Byte).length :=
  ⟨fun o => by cases o <;> decide, by decide, by decide, by decide⟩
theorem witness_DecodeOfEncodeIsTheInstruction :
    (Instr.unrecognized 0xFF#8).wellFormed = true ∧ (Instr.add 0xFF#8 0#8).wellFormed = true := by decide
theorem witness_EncodeOfDecodeIsTheBytes : decode [0xA0#8, 0xFF#8, 0#8, 7#8] = .ok (.add 0xFF#8 0#8, [7#8]) := rfl
theorem witness_FetchReadsConsecutiveCells : (loaded 0xFD [0xA0#8, 1#8, 2#8]).fetchInstr = .ok (.add 1#8 2#8) := rfl
theorem witness_StepRunsTheDecodedInstruction :
    (loaded 0xFE [0x45#8, 3#8]).status = .running ∧ decode (loaded 0xFE [0x45#8, 3#8]).codeBytes = .ok (.push 3#8, []) := ⟨rfl, rfl⟩
theorem witness_FetchInsideMemoryCompletes :
    (loaded 0xFF [0x01#8]).pc + operandCountOf ((loaded 0xFF [0x01#8]).byteAt 0xFF) ≤ 255 ∧
      (loaded 0xFD [0xA0#8]).pc + operandCountOf ((loaded 0xFD [0xA0#8]).byteAt 0xFD) ≤ 255 := by decide
theorem witness_FetchPastMemoryEndRecordsMemBounds :
    ({ State.reset with pc := 256 } : State).status = .running ∧ 256 ≤ ({ State.reset with pc := 256 } : State).pc ∧
      (loaded 255 [0x45#8]).status = .running ∧ 1 ≤ operandCountOf ((loaded 255 [0x45#8]).byteAt 255) ∧
      (loaded 254 [0xA0#8]).status = .running ∧ operandCountOf ((loaded 254 [0xA0#8]).byteAt 254) = 2 := by decide
theorem witness_OnlyRunningStatesStep :
    (State.reset.running = true ∧ State.reset.fault = none) ∧
      (({ State.reset with running := false } : State).running = false ∧ ({ State.reset with running := false } : State).fault = none) ∧
      ({ State.reset with fault := some ⟨.illegalRegister, 8, 0⟩ } : State).fault = some ⟨.illegalRegister, 8, 0⟩ := by decide
theorem witness_PushStoresBelowTheStackPointer : 0xF3 = (State.reset.sp.toNat + 255) % 256 := by decide
theorem witness_PopLoadsTheByteAtTheStackPointer : 0x00#8 = State.reset.byteAt State.reset.sp.toNat := by decide
theorem witness_CallStoresTheReturnAddressAndJumps : 0xFF = ((State.reset.setReg 7 0).sp.toNat + 255) % 256 := by decide
theorem witness_JeqJumpsOnlyIfEqualIsSet :
    (State.launch .equal []).fl.e = true ∧ (State.launch .less []).fl.e = false := by decide
theorem witness_JneJumpsOnlyIfEqualIsClear :
    (State.launch .greater []).fl.e = false ∧ (State.launch .equal []).fl.e = true := by decide
theorem witness_HltStopsTheMachine : ∃ t, exec .hlt State.reset = .next t ∧ t.fault = none := ⟨_, rfl, rfl⟩
theorem witness_UnrecognizedByteOnlyAdvancesThePc :
    (loaded 255 [0xC3#8]).status = .running ∧ (loaded 255 [0xC3#8]).pc ≤ 255 ∧
      ∀ o : Opcode, (loaded 255 [0xC3#8]).byteAt 255 ≠ o.byte := ⟨by decide, by decide, fun o => by cases o <;> decide⟩
theorem witness_IllegalRegisterByteFaultsWithoutEffect :
    ((Instr.add 8#8 255#8).regOperands.find? fun c => decide (8 ≤ c.toNat)) = some 8#8 ∧
      ((Instr.cmp 7#8 255#8).regOperands.find? fun c => decide (8 ≤ c.toNat)) = some 255#8 := by decide
theorem witness_LegalInstructionsNeverFault :
    (Instr.mul 0#8 7#8).registersInRange = true ∧ (Instr.ldi 7#8 0xFF#8).registersInRange = true := by decide
theorem witness_ArithmeticAndLoadImmediateFrame :
    ∃ s t, exec (.add 0#8 7#8) s = .next t ∧ ∃ s t, exec (.mul 9#8 7#8) s = .next t ∧ ∃ s t, exec (.ldi 7#8 1#8) s = .next t :=
  ⟨State.reset, _, rfl, State.reset, _, rfl, State.reset, _, rfl⟩
theorem witness_CompareFrame : ∃ s t, exec (.cmp 0#8 7#8) s = .next t := ⟨State.reset, _, rfl⟩
theorem witness_PushAndCallFrame :
    ∃ s t, exec (.push 7#8) s = .next t ∧ ∃ s t, exec (.call 8#8) s = .next t := ⟨State.reset, _, rfl, State.reset, _, rfl⟩
theorem witness_PopAndRetFrame :
    ∃ s t, exec (.pop 7#8) s = .next t ∧ ∃ s t, exec .ret s = .next t := ⟨State.reset, _, rfl, State.reset, _, rfl⟩
theorem witness_BranchOutputAndHaltFrame :
    ∃ s, (∃ t, exec (.jmp 7#8) s = .next t) ∧ (∃ t, exec (.jeq 1#8) s = .next t) ∧ (∃ t, exec (.jne 8#8) s = .next t) ∧
      (∃ t, exec (.prn 0#8) s = .next t) ∧ (∃ t, exec .hlt s = .next t) ∧ ∃ t, exec (.unrecognized 0#8) s = .next t :=
  ⟨State.reset, ⟨_, rfl⟩, ⟨_, rfl⟩, ⟨_, rfl⟩, ⟨_, rfl⟩, ⟨_, rfl⟩, ⟨_, rfl⟩⟩
theorem witness_PcAdvancesByLengthUnlessTransferred :
    (∀ i ∈ [Instr.jmp (regByte 7), .jeq (regByte 0), .jne (regByte 7), .call (regByte 7), .ret, .hlt, .push (regByte 7),
        .pop (regByte 7), .prn (regByte 0), .ldi (regByte 7) 255#8, .add (regByte 0) (regByte 7), .mul (regByte 7) (regByte 0),
        .cmp (regByte 7) (regByte 7), .unrecognized 0xFF#8],
      i.registersInRange = true ∧ (nextOf (exec i State.reset)).isSome = true) ∧
    ∀ i ∈ [Instr.jeq (regByte 7), .jne (regByte 0)],
      (nextOf (exec i (State.launch .equal []))).isSome = true := by decide
theorem witness_OnlyCmpWritesFlagsAndOnlyEIsRead :
    ∃ t, exec (.jeq 0#8) State.reset = .next t ∧ (⟨false, true, false⟩ : Flags).e = State.reset.fl.e ∧
      (Instr.jeq 0#8).opcode ≠ some .cmp := ⟨_, rfl, rfl, by decide⟩
theorem witness_OnlyHltClearsRunning :
    ∃ t, step (loaded 0 [0x01#8]) = .next t ∧ ∃ u, exec .hlt State.reset = .next u := ⟨_, rfl, _, rfl⟩
theorem witness_OnlyPrnAppendsOutput :
    ∃ t, step (loaded 0 [0x47#8, 7#8]) = .next t ∧ t.out ≠ (loaded 0 [0x47#8, 7#8]).out := ⟨_, rfl, by decide⟩
theorem witness_OnlyPushAndCallWriteMemory :
    ∃ t, step (loaded 0 [0x45#8, 7#8]) = .next t ∧ t.mem ≠ (loaded 0 [0x45#8, 7#8]).mem := ⟨_, rfl, by decide⟩
theorem witness_UnusedRegistersNeitherChangeNorMatter :
    ∃ t, usesRegister (.push 0#8) 1 = false ∧ exec (.push 0#8) State.reset = .next t := ⟨_, rfl, rfl⟩
theorem witness_FaultsCommitNothing :
    ∃ t, step (loaded 0 [0x45#8, 8#8]) = .next t ∧ t.fault ≠ none := ⟨_, rfl, by decide⟩
theorem witness_OnlyReachableFaultsAreRecorded :
    (∃ t, step (loaded 0 [0x45#8, 8#8]) = .next t ∧ t.fault = some ⟨.illegalRegister, 8, 0⟩) ∧
      (∃ t, step (loaded 255 [0x45#8]) = .next t ∧ t.fault = some ⟨.memBounds, 256, 255⟩) ∧
      ∃ t, step (loaded 258 []) = .next t ∧ t.fault = some ⟨.memBounds, 258, 258⟩ := ⟨⟨_, rfl, rfl⟩, ⟨_, rfl, rfl⟩, ⟨_, rfl, rfl⟩⟩
theorem witness_PushedBytesAreFetchedAsCode :
    ∃ t, (State.reset.setReg 0 1).status = .running ∧ (0 : RegIndex) ≠ 7 ∧
      exec (.push (regByte 0)) (State.reset.setReg 0 1) = .next t ∧ (State.reset.setReg 0 1).reg 0 = 0x01#8 ∧
      ∀ o : Opcode, State.reset.reg 0 ≠ o.byte :=
  ⟨_, rfl, by decide, rfl, rfl, fun o => by cases o <;> decide⟩
theorem witness_JumpToItselfRunsForever :
    let s := (loaded 254 [0x54#8, 3#8]).setReg 3 254
    s.status = .running ∧ s.pc ≤ 254 ∧ s.byteAt s.pc = 0x54#8 ∧ s.byteAt (s.pc + 1) = regByte 3 ∧ (s.reg 3).toNat = s.pc := by decide
theorem witness_UnrecognizedSlideEndsInMemBounds :
    (loaded 254 []).status = .running ∧ (loaded 254 []).pc ≤ 256 ∧
      ∀ a, (loaded 254 []).pc ≤ a → a ≤ 255 → ∀ o : Opcode, (loaded 254 []).byteAt a ≠ o.byte :=
  ⟨rfl, by decide, fun a _ _ o => (by cases o <;> decide : (0x00#8 : Byte) ≠ o.byte)⟩
theorem witness_StepKeepsTheInvariant : ∃ t, State.reset.Inv ∧ step State.reset = .next t :=
  ⟨_, ⟨by decide, by decide, by decide, nofun⟩, rfl⟩
theorem witness_LaunchMeetsTheInvariant : Memory.wf [(0, 0x01#8), (255, 0xFF#8)] = true := by decide
theorem witness_PcNeverPasses256 : ∃ t, (loaded 255 [0x01#8]).pc ≤ 256 ∧ step (loaded 255 [0x01#8]) = .next t := ⟨_, by decide, rfl⟩
theorem witness_FirstInstructionIsAtAddressZero :
    decode ((List.range 256).map fun a => Memory.lookup [(0, 0x01#8)] a) =
      .ok (.hlt, ((List.range 256).map fun a => Memory.lookup [(0, 0x01#8)] a).drop 1) := rfl
theorem witness_LoaderWritesTheImageFromZero :
    (List.replicate 256 0x1FF).length ≤ 256 ∧ (List.replicate 256 0x1FF)[255]? = some 0x1FF ∧
      (List.replicate 255 0x1FF).length ≤ 255 ∧ 256 < (List.replicate 257 0).length := by
  simp only [List.length_replicate, List.getElem?_replicate]; decide
theorem witness_ByteReadsBackAfterWrite : (255 : Nat) < 256 ∧ (254 : Nat) ≠ 255 := by decide
theorem witness_AccessOutsideMemoryRaisesMemBounds : (256 : Nat) ≤ 256 := by decide
theorem witness_CanonicalMemoriesThatReadAlikeAreEqual :
    Memory.wf [(3, 0x01#8)] = true ∧ ∀ a, a < 256 → Memory.lookup [(3, 0x01#8)] a = Memory.lookup (Memory.store [] 3 0x01#8) a :=
  ⟨by decide, fun _ _ => rfl⟩
theorem witness_PopUndoesPush :
    ∃ t, exec (.push (regByte 7)) State.reset = .next t ∧ t.sp = t.sp ∧ t.byteAt t.sp.toNat = t.byteAt t.sp.toNat := ⟨_, rfl, rfl, rfl⟩
theorem witness_RetUndoesCall : ∃ t, exec (.call (regByte 7)) { State.reset with pc := 254 } = .next t := ⟨_, rfl⟩
theorem witness_BalancedStackCodeRestoresRegisters :
    (Balanced.around 0 (.around 7 .done .done) (.around 1 .done .done)).depth ≤ 256 ∧
      (Balanced.around 0 (.around 7 .done .done) .done).code = [.push 0#8, .push 7#8, .pop 7#8, .pop 0#8] := by decide
theorem witness_IdiomsDecrementMoveAndJump : (0 : RegIndex) ≠ 7 := by decide

end Sys2Proof.Tests
end

section
/-! PROOFS. The state components no instruction or only one instruction touches: the flags, the Running flag and the output; the
registers at launch and what a register write stores. -/

namespace Sys2Proof.Machine

/-! ### What an instruction changes of the flags, the Running flag and the output -/

/-- Every instruction but CMP on legal registers keeps the flags (R30). -/
theorem exec_fl_eq {i : Instr} {s t : State} (h : exec i s = .next t) :
    t.fl = if i.opcode = some .cmp ∧ i.registersInRange = true then t.fl else s.fl := by
  split
  · rfl
  · rename_i hi
    rcases exec_next_cases h with ⟨hr, he⟩ | ⟨-, b, -, rfl⟩
    · cases he
      case cmp => exact absurd ⟨rfl, hr⟩ hi
      case jeq | jne => split <;> rfl
      all_goals rfl
    · rfl

/-- HLT clears the Running flag, every other instruction keeps it (R33). -/
theorem exec_running_eq {i : Instr} {s t : State} (h : exec i s = .next t) :
    t.running = if i = .hlt then false else s.running := by
  rcases exec_next_cases h with ⟨-, he⟩ | ⟨hr, b, -, rfl⟩
  · cases he
    case jeq | jne => cases s.fl.e <;> simp
    all_goals simp
  · have hi : i ≠ .hlt := by rintro rfl; cases hr
    simp [hi]

/-- PRN of a register appends its value to the output, every other effect keeps the output (R36). -/
theorem exec_out_cases {i : Instr} {s t : State} (h : exec i s = .next t) :
    t.out = s.out ∨ ∃ k, i = .prn (regByte k) ∧ t.out = s.out ++ [s.reg k] := by
  rcases exec_next_cases h with ⟨-, he⟩ | ⟨-, b, -, rfl⟩
  · cases he
    case prn k => exact .inr ⟨k, rfl, rfl⟩
    case jeq | jne => left; split <;> rfl
    all_goals left; simp
  · exact .inl rfl

/-- The output after an instruction is the output before it and what the instruction appended. -/
theorem exec_out_eq_append_drop {i : Instr} {s t : State} (h : exec i s = .next t) :
    s.out ++ t.out.drop s.out.length = t.out := by
  rcases exec_out_cases h with ho | ⟨k, -, ho⟩ <;> simp [ho]

/-! ### What an instruction reads of them -/

/-- `s` with other flags, another Running flag and another output. -/
def State.withControl (s : State) (fl : Flags) (running : Bool) (out : List Byte) : State :=
  { s with fl := fl, running := running, out := out }

/-- An instruction's own effect from a state with other flags (the same E for JEQ and JNE), another Running flag and another
output: it is the same but for these three, and of these it replaces the flags if it is CMP, clears Running if it is HLT, and
appends the same output. -/
theorem Effect.withControl {i : Instr} {s t : State} (h : Effect i s t) {fl : Flags} (running : Bool) (out : List Byte)
    (hE : i.opcode = some .jeq ∨ i.opcode = some .jne → fl.e = s.fl.e) :
    Effect i (s.withControl fl running out)
      (t.withControl (if i.opcode = some .cmp then t.fl else fl) (if i = .hlt then false else running)
        (out ++ t.out.drop s.out.length)) := by
  cases h
  case jeq k | jne k =>
    obtain ⟨e, l, g⟩ := fl
    obtain rfl : e = s.fl.e := hE (by simp [Instr.opcode])
    cases s.fl.e <;> simp [Instr.opcode] <;> constructor
  -- CALL's target stays a register read, as `Effect.call` writes it.
  all_goals simp [Instr.opcode, -State.setSp_reg]
  all_goals constructor

/-- No instruction reads the Running flag, the output or the flags L and G, and only JEQ and JNE read E (R30, R33, R36). -/
theorem exec_withControl {i : Instr} {s t : State} (h : exec i s = .next t) {fl : Flags} (running : Bool) (out : List Byte)
    (hE : i.opcode = some .jeq ∨ i.opcode = some .jne → fl.e = s.fl.e) :
    exec i (s.withControl fl running out) =
      .next (t.withControl (if i.opcode = some .cmp ∧ i.registersInRange = true then t.fl else fl)
        (if i = .hlt then false else running) (out ++ t.out.drop s.out.length)) := by
  rcases exec_cases i with ⟨hr, hs⟩ | ⟨hr, b, -, hs⟩
  · obtain ⟨u, hu, he⟩ := hs s
    cases hu.symm.trans h
    simpa [hr] using exec_of_effect (he.withControl running out hE)
  · cases (hs s).symm.trans h
    have hi : i ≠ .hlt := by rintro rfl; cases hr
    rw [hs]
    simp [hr, hi, State.withControl, State.takeFault]

end Sys2Proof.Machine

namespace Sys2Proof.Proofs

open Sys2Proof.Machine

/-- Settles O34: flags are written by CMP alone, and JEQ and JNE, which read E, are decided by it in both directions. -/
theorem onlyCmpWritesFlagsAndOnlyEIsRead : Obligations.OnlyCmpWritesFlagsAndOnlyEIsRead := by
  refine ⟨fun s t i h hi => (exec_fl_eq h).trans (if_neg fun hc => hi hc.1), fun s t i f h hE => ?_, fun s k f => ?_⟩
  · have he := exec_withControl h s.running s.out hE
    rw [← exec_running_eq h, exec_out_eq_append_drop h] at he
    exact he
  · rw [exec_jeq_legal, exec_jne_legal]
    cases he : f.e <;> simp [State.jumpTo, State.advance, State.reg]

/-- Settles O35: an executed instruction's Running flag is known from `exec_running_eq`, and a raise of the fetch keeps it. -/
theorem onlyHltClearsRunning : Obligations.OnlyHltClearsRunning := by
  refine ⟨fun _ _ => rfl, fun s t h => ?_, fun s t i b h => ?_⟩
  · obtain ⟨hs, hcases⟩ := step_next_cases h
    have hrun : s.running = true := ((State.status_running_iff s).mp hs).2
    refine ⟨hrun, ?_⟩
    rcases hcases with ⟨i, hf, he⟩ | ⟨r, hf, rfl⟩
    · simp [exec_running_eq he, hrun, hf]
    · simp [hrun, hf]
  · have he := exec_withControl h (fl := s.fl) b s.out fun _ => rfl
    rw [← exec_fl_eq h, exec_out_eq_append_drop h] at he
    exact he

/-- Settles O36: only a fetched PRN of a register can make the output differ, and `exec_withControl` starts it from any output. -/
theorem onlyPrnAppendsOutput : Obligations.OnlyPrnAppendsOutput := by
  refine ⟨fun _ _ => rfl, fun s t h hne => ?_, fun s t i o h => ?_⟩
  · obtain ⟨-, ⟨i, hf, he⟩ | ⟨r, -, rfl⟩⟩ := step_next_cases h
    · rcases exec_out_cases he with ho | ⟨k, rfl, ho⟩
      · exact absurd ho hne
      · exact ⟨k, hf, ho⟩
    · exact absurd rfl hne
  · have he := exec_withControl h (fl := s.fl) s.running o fun _ => rfl
    rw [← exec_fl_eq h, ← exec_running_eq h] at he
    exact he

/-- Settles O47: the launch registers do not depend on the launch parameters, so the default launch decides it for each index. -/
theorem resetRegistersAreAsStated : Obligations.ResetRegistersAreAsStated := by
  intro fl m0 k
  have h : ∀ k : RegIndex, State.reset.reg k = if k = 7 then 0xF4#8 else 0x00#8 := by decide
  exact h k

/-- Settles O54: a register reads as the last value written to it, and `wrap` is reduction modulo 256. -/
theorem registerWriteStoresModulo256 : Obligations.RegisterWriteStoresModulo256 := by
  refine fun s i v => ⟨?_, fun j hj => ?_, rfl⟩
  · rw [State.setReg_reg, if_pos rfl]
    exact wrap_toNat v
  · rw [State.setReg_reg, if_neg hj.symm]

end Sys2Proof.Proofs
end

section
/-! PROOFS. Memory: what a read answers after a byte was stored, at the same address and at every other. -/

namespace Sys2Proof.Machine

theorem State.storeByte_memRead_self (s : State) {a : Nat} (v : Int) (ha : a < Config.memSize) :
    (s.storeByte a v).memRead a = .ok (wrap v) := by
  rw [State.memRead_ok ha, State.storeByte_byteAt, if_pos rfl]

/-- The other address may lie outside memory: the read then raises the same condition before and after the store. -/
theorem State.storeByte_memRead_of_ne (s : State) {a b : Nat} (v : Int) (hb : b ≠ a) :
    (s.storeByte a v).memRead b = s.memRead b := by
  simp only [State.memRead, State.storeByte_byteAt, if_neg hb]

/-- For a natural number, storing modulo 256 is the bit vector of the remainder. -/
theorem wrap_nat_eq_ofNat_mod (n : Nat) : wrap n = BitVec.ofNat 8 (n % 256) := by
  rw [wrap_nat]
  exact BitVec.eq_of_toNat_eq (by simp)

end Sys2Proof.Machine

namespace Sys2Proof.Proofs

open Sys2Proof.Machine

/-- Settles O51: the written state is `storeByte`, whose reads at the address and elsewhere are the two laws above. -/
theorem byteReadsBackAfterWrite : Obligations.ByteReadsBackAfterWrite := by
  intro s a v ha
  refine ⟨s.storeByte a v, State.memWrite_ok ha, ?_, ?_, ⟨s.byteAt a, State.memRead_ok ha⟩, rfl⟩
  · rw [State.storeByte_memRead_self s v ha, wrap_nat_eq_ofNat_mod]
  · exact fun b hb => State.storeByte_memRead_of_ne s v hb

end Sys2Proof.Proofs
end

section
/-! PROOFS. Encoding: the opcode map, the layout of each format, decoding as a lookup on the opcode byte, and what a fetch reads. -/

namespace Sys2Proof

/-! ### The opcode map and the encoder -/

theorem Opcode.mem_all (o : Opcode) : o ∈ Opcode.all := by
  cases o <;> decide

@[simp] theorem operandCountOf_byte (o : Opcode) : operandCountOf o.byte = o.operandCount := by
  simp [operandCountOf]

/-- A byte that is no opcode takes no operand bytes (R123). -/
theorem operandCountOf_unrecognized {op : Byte} (h : Opcode.ofByte? op = none) : operandCountOf op = 0 := by
  simp [operandCountOf, h]

theorem Instr.length_of_opcode {i : Instr} {o : Opcode} (h : i.opcode = some o) : i.length = 1 + o.operandCount := by
  simp [Instr.length, h]

/-- Every instruction's encoding has the length its opcode says, 1 to 3 bytes (R60). -/
theorem encodeLength_statement (i : Instr) : Laws.EncodeLength.Statement i :=
  match i with
  | .hlt => Laws.EncodeLength.hlt
  | .ret => Laws.EncodeLength.ret
  | .push r => Laws.EncodeLength.push r
  | .pop r => Laws.EncodeLength.pop r
  | .prn r => Laws.EncodeLength.prn r
  | .call r => Laws.EncodeLength.call r
  | .jmp r => Laws.EncodeLength.jmp r
  | .jeq r => Laws.EncodeLength.jeq r
  | .jne r => Laws.EncodeLength.jne r
  | .ldi r v => Laws.EncodeLength.ldi r v
  | .add a b => Laws.EncodeLength.add a b
  | .mul a b => Laws.EncodeLength.mul a b
  | .cmp a b => Laws.EncodeLength.cmp a b
  | .unrecognized op => Laws.EncodeLength.unrecognized op

theorem encode_length (i : Instr) : (encode i).length = i.length := (encodeLength_statement i).1

theorem Instr.one_le_length (i : Instr) : 1 ≤ i.length := (encodeLength_statement i).2.1

theorem Instr.length_le_maxLength (i : Instr) : i.length ≤ Config.maxLength := (encodeLength_statement i).2.2

theorem encode_head?_of_opcode {i : Instr} {o : Opcode} (h : i.opcode = some o) : (encode i).head? = some o.byte := by
  cases i <;> cases h <;> rfl

/-- Every operand byte names a register but LDI's second, the immediate (R67). -/
theorem Instr.regOperands_length_of_opcode {i : Instr} {o : Opcode} (h : i.opcode = some o) :
    i.regOperands.length = if o = .ldi then 1 else o.operandCount := by
  cases i <;> cases h <;> rfl

/-! ### Decoding a list of bytes -/

theorem listByte_ok_iff {bytes : List Byte} {k : Nat} {b : Byte} : listByte bytes k = .ok b ↔ bytes[k]? = some b := by
  unfold listByte
  cases bytes[k]? <;> simp

theorem listByte_error_iff {bytes : List Byte} {k : Nat} {e : DecodeError} :
    listByte bytes k = .error e ↔ bytes.length ≤ k ∧ e = .missingByte k := by
  unfold listByte
  rw [← List.getElem?_eq_none_iff]
  cases bytes[k]? <;> simp [eq_comm]

theorem decode_of_decodeFrom_ok {bytes : List Byte} {i : Instr} (h : decodeFrom (listByte bytes) = .ok i) :
    decode bytes = .ok (i, bytes.drop i.length) := by
  simp [decode, h]

theorem decode_of_decodeFrom_error {bytes : List Byte} {e : DecodeError} (h : decodeFrom (listByte bytes) = .error e) :
    decode bytes = .error e := by
  simp [decode, h]

theorem opcode_of_decodeOperands_ok {ε : Type} {fetch : Nat → Except ε Byte} {o : Opcode} {i : Instr}
    (h : decodeOperands fetch o = .ok i) : i.opcode = some o := by
  cases o <;> simp only [decodeOperands, oneOperand_ok, twoOperands_ok, Except.ok.injEq] at h
  case hlt | ret => subst h; rfl
  case ldi | add | mul | cmp => obtain ⟨a, b, -, -, rfl⟩ := h; rfl
  all_goals obtain ⟨r, -, rfl⟩ := h; rfl

/-- The opcode byte alone fixes which instruction is decoded (R61). -/
theorem opcode_of_decodeFrom_ok {ε : Type} {fetch : Nat → Except ε Byte} {i : Instr} {b : Byte}
    (h : decodeFrom fetch = .ok i) (h0 : fetch 0 = .ok b) : i.opcode = Opcode.ofByte? b := by
  rcases decodeFrom_ok_cases.mp h with ⟨o, ho, hi⟩ | ⟨op, hop, hnone, rfl⟩
  · obtain rfl : o.byte = b := Except.ok.inj (ho.symm.trans h0)
    rw [opcode_of_decodeOperands_ok hi, Opcode.ofByte?_byte]
  · obtain rfl : op = b := Except.ok.inj (hop.symm.trans h0)
    exact hnone.symm

/-- An instruction decodes only from a list that holds all of its bytes. -/
theorem length_le_of_decodeFrom_ok {bytes : List Byte} {i : Instr} (h : decodeFrom (listByte bytes) = .ok i) :
    i.length ≤ bytes.length := by
  obtain ⟨-, hgives⟩ := decodeFrom_eq_ok_iff.mp h
  have hlast : i.length - 1 < (encode i).length := by
    have := i.one_le_length
    rw [encode_length]
    omega
  have hread := listByte_ok_iff.mp (hgives _ _ (List.getElem?_eq_getElem hlast))
  have := (List.getElem?_eq_some_iff.mp hread).1
  omega

/-- A list ends before its first instruction does only within the operand bytes: the first missing one is reported. -/
theorem missingByte_of_decodeFrom_error {o : Opcode} {rest : List Byte} {e : DecodeError}
    (h : decodeFrom (listByte (o.byte :: rest)) = .error e) :
    rest.length < o.operandCount ∧ e = .missingByte (1 + rest.length) := by
  rcases decodeFrom_error h with h0 | ⟨p, hp, hmissing⟩
  · simp [listByte_error_iff] at h0
  · obtain rfl : o = p := by
      have hbyte : o.byte = p.byte := Except.ok.inj hp
      simpa using congrArg Opcode.ofByte? hbyte
    rcases hmissing with ⟨hcount, h1⟩ | ⟨hcount, ⟨a, h1⟩, h2⟩
    · obtain ⟨hlen, rfl⟩ := listByte_error_iff.mp h1
      rw [List.length_cons] at hlen
      have hrest : rest.length = 0 := by omega
      exact ⟨by omega, by rw [hrest]⟩
    · obtain ⟨hlen, rfl⟩ := listByte_error_iff.mp h2
      have hge := (List.getElem?_eq_some_iff.mp (listByte_ok_iff.mp h1)).1
      rw [List.length_cons] at hlen hge
      have hrest : rest.length = 1 := by omega
      exact ⟨by omega, by rw [hrest]⟩

/-- What decoding a recognized opcode byte and the bytes after it answers: that opcode's instruction and what follows its operand
bytes, or, when too few follow, the first operand byte that is missing. -/
theorem decode_opcode_cases (o : Opcode) (rest : List Byte) :
    (o.operandCount ≤ rest.length ∧
        ∃ i, i.opcode = some o ∧ decode (o.byte :: rest) = .ok (i, rest.drop o.operandCount)) ∨
      (rest.length < o.operandCount ∧ decode (o.byte :: rest) = .error (.missingByte (1 + rest.length))) := by
  cases h : decodeFrom (listByte (o.byte :: rest)) with
  | ok i =>
    have hop : i.opcode = some o := (opcode_of_decodeFrom_ok h rfl).trans (Opcode.ofByte?_byte o)
    have hlen := length_le_of_decodeFrom_ok h
    have hdec := decode_of_decodeFrom_ok h
    rw [Instr.length_of_opcode hop, Nat.add_comm 1] at hlen hdec
    exact .inl ⟨Nat.le_of_succ_le_succ hlen, i, hop, hdec⟩
  | error e =>
    obtain ⟨hshort, rfl⟩ := missingByte_of_decodeFrom_error h
    exact .inr ⟨hshort, decode_of_decodeFrom_error h⟩

/-- A byte that is no opcode is a whole instruction by itself, whatever follows (R66). -/
theorem decode_unrecognized {op : Byte} (rest : List Byte) (h : Opcode.ofByte? op = none) :
    decode (op :: rest) = .ok (.unrecognized op, rest) :=
  decode_of_decodeFrom_ok (decodeFrom_ok_cases.mpr (.inr ⟨op, rfl, h, rfl⟩))

end Sys2Proof

namespace Sys2Proof.Machine

/-- A fetched instruction's encoding is the bytes of memory from the pc on, in ascending order (R60). -/
theorem encode_of_fetchInstr_ok {s : State} {i : Instr} (h : s.fetchInstr = .ok i) :
    encode i = (List.range (encode i).length).map fun k => s.byteAt (s.pc + k) := by
  obtain ⟨-, hbytes⟩ := fetchInstr_ok_iff.mp h
  refine List.ext_getElem (by simp) fun k hk _ => ?_
  rw [List.getElem_map, List.getElem_range]
  exact (hbytes k _ (List.getElem?_eq_getElem hk)).2

end Sys2Proof.Machine

namespace Sys2Proof.Proofs

open Sys2Proof.Machine

/-- Settles O2: the byte is one of the 13, and `decode_opcode_cases` says what its operand bytes make of it, or it is none. -/
theorem decodeLooksUpTheWholeOpcodeByte : Obligations.DecodeLooksUpTheWholeOpcodeByte := by
  refine ⟨fun o => ?_, fun op rest h => ?_, fun o rest hlen => ?_, fun o rest hlen => ?_⟩
  · rw [operandCountOf_byte]
    cases o <;> rfl
  · have hnone := (Opcode.ofByte?_eq_none_iff op).mpr h
    exact ⟨operandCountOf_unrecognized hnone, decode_unrecognized rest hnone⟩
  · rcases decode_opcode_cases o rest with ⟨-, hdec⟩ | ⟨hshort, -⟩
    · exact hdec
    · omega
  · rcases decode_opcode_cases o rest with ⟨hlong, -⟩ | ⟨-, hdec⟩
    · omega
    · exact hdec

/-- Settles O7: the fetch gives each byte of the encoding, and every encoding is 1 to 3 bytes long. -/
theorem fetchReadsConsecutiveCells : Obligations.FetchReadsConsecutiveCells := by
  refine fun s i h => ⟨encode_of_fetchInstr_ok h, ?_⟩
  rw [encode_length]
  exact ⟨i.one_le_length, i.length_le_maxLength⟩

/-- Settles O1: the table is the opcode map evaluated row by row; a byte is an opcode when its value is in the map's byte column. -/
theorem opcodeMapIsTheSpecTable : Obligations.OpcodeMapIsTheSpecTable := by
  refine ⟨rfl, Opcode.mem_all, fun i o h => ⟨encode_head?_of_opcode h, ?_, Instr.regOperands_length_of_opcode h⟩, fun b => ?_⟩
  · rw [encode_length, Instr.length_of_opcode h]
  · have hcolumn : [0x01, 0x11, 0x45, 0x46, 0x47, 0x50, 0x54, 0x55, 0x56, 0x82, 0xA0, 0xA2, 0xA7] =
        Opcode.all.map fun o => o.byte.toNat := rfl
    rw [hcolumn, List.mem_map]
    constructor
    · rintro ⟨o, rfl⟩
      exact ⟨o, o.mem_all, rfl⟩
    · rintro ⟨o, -, ho⟩
      exact ⟨o, BitVec.eq_of_toNat_eq ho⟩

/-- Settles O3: each clause is the encoder's own equation for one instruction, and the last is `regOperands` per constructor. -/
theorem formatsLayOutTheirBytes : Obligations.FormatsLayOutTheirBytes := by
  refine fun r v a b op => ⟨⟨rfl, rfl⟩, ?oneOperand, ?twoRegisters, rfl, rfl, fun i => ?registers⟩
  case oneOperand => exact ⟨rfl, rfl, rfl, rfl, rfl, rfl, rfl⟩
  case twoRegisters => exact ⟨rfl, rfl, rfl⟩
  case registers => cases i <;> rfl

end Sys2Proof.Proofs
end

section
/-! PROOFS. The ALU: ADD and MUL are one register write of an exact natural number, CMP is one write of the flags. -/

namespace Sys2Proof.Machine

theorem State.alu_add_eq_setReg (s : State) (i j : RegIndex) :
    s.alu .add i j = s.setReg i ((s.reg i).toNat + (s.reg j).toNat : Nat) := rfl

theorem State.alu_mul_eq_setReg (s : State) (i j : RegIndex) :
    s.alu .mul i j = s.setReg i ((s.reg i).toNat * (s.reg j).toNat : Nat) := rfl

theorem State.alu_cmp_fl (s : State) (i j : RegIndex) :
    (s.alu .cmp i j).fl = compareFlags (s.reg i) (s.reg j) := rfl

/-- The frame of the ALU (R80): a register write keeps the other fields, and so does a write of the flags. -/
theorem State.alu_eq_with_regs_fl (s : State) (op : AluOp) (i j : RegIndex) :
    s.alu op i j = { s with regs := (s.alu op i j).regs, fl := (s.alu op i j).fl } := by
  apply State.eq_of_fields <;> simp

/-- A natural number written to a register is read back modulo 256; no flag and no other register changes (R20, R22). -/
theorem State.setReg_nat_effect (s : State) (i : RegIndex) (n : Nat) :
    (s.setReg i n).fl = s.fl ∧ ((s.setReg i n).reg i).toNat = n % 256 ∧ ∀ k, k ≠ i → (s.setReg i n).reg k = s.reg k := by
  refine ⟨rfl, ?_, fun k hk => ?_⟩
  · rw [State.setReg_reg, if_pos rfl, wrap_nat, BitVec.toNat_ofNat]
  · rw [State.setReg_reg, if_neg hk.symm]

/-- Each outcome of the comparison sets its own flag and clears the two others (R83). -/
theorem compareFlags_exactlyOne (va vb : Byte) : (compareFlags va vb).exactlyOne = true := by
  unfold compareFlags
  split
  case isTrue => rfl
  case isFalse => split <;> rfl

end Sys2Proof.Machine

namespace Sys2Proof.Proofs

open Sys2Proof.Machine

/-- Settles O55: for ADD and MUL the register write law gives the exact result modulo 256, for CMP exactly one flag is set. -/
theorem aluTouchesOnlyRegistersAndFlags : Obligations.AluTouchesOnlyRegistersAndFlags := by
  intro s op i j
  refine ⟨s.alu_eq_with_regs_fl op i j, ?_⟩
  cases op with
  | add =>
    rw [State.alu_add_eq_setReg]
    exact s.setReg_nat_effect i _
  | mul =>
    rw [State.alu_mul_eq_setReg]
    exact s.setReg_nat_effect i _
  | cmp => exact ⟨rfl, s.alu_cmp_fl i j ▸ compareFlags_exactlyOne _ _⟩

end Sys2Proof.Proofs
end

section
/-! PROOFS. The stack: RET is one write of SP and a jump to the byte that SP named. -/

namespace Sys2Proof.Machine

/-- SP is written modulo 256: a natural number stored there puts its residue in x[7] and changes nothing else (R95). -/
theorem State.setSp_nat (s : State) (n : Nat) :
    s.setSp n = { s with regs := s.regs.set 7 (BitVec.ofNat 8 (n % 256)) } := by
  rw [← wrap_nat_eq_ofNat_mod]
  rfl

end Sys2Proof.Machine

namespace Sys2Proof.Proofs

open Sys2Proof.Machine

/-- Settles O18: RET is the SP write above, then a jump to the byte read before it. -/
theorem retPopsThePc : Obligations.RetPopsThePc := by
  refine ⟨rfl, fun s => ?_⟩
  rw [exec_ret, ← Int.natCast_succ, State.setSp_nat]
  rfl

end Sys2Proof.Proofs
end

section
/-! PROOFS. Dispatch: an unrecognized opcode byte is fetched alone and does nothing but advance the pc. -/

namespace Sys2Proof.Machine

/-- A byte below 256 that is no opcode is fetched as a whole instruction: whether the next address exists does not matter (R126). -/
theorem fetchInstr_unrecognized {s : State} (hpc : s.pc < Config.memSize) (hop : Opcode.ofByte? (s.byteAt s.pc) = none) :
    s.fetchInstr = .ok (.unrecognized (s.byteAt s.pc)) := by
  have hfetch : s.fetchByte 0 = .ok (s.byteAt s.pc) := fetchByte_ok_iff.mpr ⟨hpc, rfl⟩
  exact decodeFrom_ok_cases.mpr (.inr ⟨_, hfetch, hop, rfl⟩)

end Sys2Proof.Machine

namespace Sys2Proof.Proofs

open Sys2Proof.Machine

/-- Settles O25: the meaning is one advance of the pc, and a Running step at such a byte fetches it and runs that meaning. -/
theorem unrecognizedByteOnlyAdvancesThePc : Obligations.UnrecognizedByteOnlyAdvancesThePc := by
  refine ⟨fun s op => exec_unrecognized op s, fun s hrun hpc hop => ?_⟩
  have hfetch : s.fetchInstr = .ok (.unrecognized (s.byteAt s.pc)) :=
    fetchInstr_unrecognized (Nat.lt_succ_of_le hpc) ((Opcode.ofByte?_eq_none_iff _).mpr hop)
  rw [step_of_fetch_ok hrun hfetch]
  exact exec_unrecognized _ s

end Sys2Proof.Proofs
end

section
/-! PROOFS. Reset: the first fetch reads the launch memory from address 0 on, with no vector between. -/

namespace Sys2Proof

theorem decodeFrom_ok_of_decode {bytes rest : List Byte} {i : Instr} (h : decode bytes = .ok (i, rest)) :
    decodeFrom (listByte bytes) = .ok i := by
  cases hfrom : decodeFrom (listByte bytes) with
  | ok j =>
    rw [decode_of_decodeFrom_ok hfrom] at h
    cases h
    rfl
  | error e =>
    rw [decode_of_decodeFrom_error hfrom] at h
    cases h

end Sys2Proof

namespace Sys2Proof.Machine

theorem codeBytes_getElem?_eq_some_iff {s : State} {k : Nat} {b : Byte} :
    s.codeBytes[k]? = some b ↔ s.pc + k < Config.memSize ∧ b = s.byteAt (s.pc + k) := by
  simp only [State.codeBytes, List.getElem?_map, Option.map_eq_some_iff, List.getElem?_eq_some_iff, List.length_range,
    List.getElem_range, Nat.lt_sub_iff_add_lt']
  constructor
  · rintro ⟨_, ⟨hk, rfl⟩, rfl⟩
    exact ⟨hk, rfl⟩
  · rintro ⟨hk, rfl⟩
    exact ⟨k, ⟨hk, rfl⟩, rfl⟩

/-- The list decoder over the bytes from the pc on and the fetch read the same byte at each offset, so they find the same
instruction (R60, R121). -/
theorem fetchInstr_of_decode_codeBytes {s : State} {i : Instr} {rest : List Byte} (h : decode s.codeBytes = .ok (i, rest)) :
    s.fetchInstr = .ok i := by
  obtain ⟨hwf, hgives⟩ := decodeFrom_eq_ok_iff.mp (decodeFrom_ok_of_decode h)
  refine fetchInstr_ok_iff.mpr ⟨hwf, fun k b hk => ?_⟩
  exact codeBytes_getElem?_eq_some_iff.mp (listByte_ok_iff.mp (hgives k b hk))

theorem launch_status (fl : FlReset) (m0 : Memory) : (State.launch fl m0).status = .running := rfl

/-- At launch the bytes from the pc on are the whole launch memory, from address 0 (R162). -/
theorem launch_codeBytes (fl : FlReset) (m0 : Memory) :
    (State.launch fl m0).codeBytes = (List.range 256).map fun a => Memory.lookup m0 a := by
  refine List.map_congr_left fun a _ => ?_
  exact congrArg (Memory.lookup m0) (Nat.zero_add a)

end Sys2Proof.Machine

namespace Sys2Proof.Proofs

open Sys2Proof.Machine

/-- Settles O48: the launch memory is what the first fetch decodes, and the launch state is Running. -/
theorem firstInstructionIsAtAddressZero : Obligations.FirstInstructionIsAtAddressZero := by
  refine fun fl m0 => ⟨rfl, fun i rest h => ?_⟩
  rw [← launch_codeBytes fl m0] at h
  exact step_of_fetch_ok (launch_status fl m0) (fetchInstr_of_decode_codeBytes h)

end Sys2Proof.Proofs
end

section
/-! PROOFS. Encoding: a list of bytes decodes to an instruction exactly when it begins with the instruction's encoding. -/

namespace Sys2Proof

/-- The bytes of a list give an encoding exactly when the list begins with it. -/
theorem givesEncoding_listByte_iff {bytes : List Byte} {i : Instr} :
    GivesEncoding (listByte bytes) i ↔ encode i <+: bytes := by
  simp only [GivesEncoding, listByte_ok_iff, List.prefix_iff_getElem?]
  constructor
  · exact fun h k hk => h k _ (List.getElem?_eq_getElem hk)
  · intro h k b hb
    obtain ⟨hk, rfl⟩ := List.getElem?_eq_some_iff.mp hb
    exact h k hk

/-- The decoder's two directions at once: it answers the well-formed instruction whose encoding the list begins with, and the
bytes after that encoding. -/
theorem decode_eq_ok_iff {bytes rest : List Byte} {i : Instr} :
    decode bytes = .ok (i, rest) ↔ i.wellFormed = true ∧ encode i ++ rest = bytes := by
  constructor
  · intro h
    have hfrom := decodeFrom_ok_of_decode h
    obtain ⟨hwf, hgives⟩ := decodeFrom_eq_ok_iff.mp hfrom
    obtain ⟨tail, rfl⟩ := givesEncoding_listByte_iff.mp hgives
    rw [decode_of_decodeFrom_ok hfrom, ← encode_length, List.drop_left] at h
    cases h
    exact ⟨hwf, rfl⟩
  · rintro ⟨hwf, rfl⟩
    have hgives : GivesEncoding (listByte (encode i ++ rest)) i :=
      givesEncoding_listByte_iff.mpr (List.prefix_append _ _)
    rw [decode_of_decodeFrom_ok (decodeFrom_eq_ok_iff.mpr ⟨hwf, hgives⟩), ← encode_length, List.drop_left]

end Sys2Proof

namespace Sys2Proof.Proofs

/-- Settles O5: `decode_eq_ok_iff` from right to left, the list being the encoding and what follows it. -/
theorem decodeOfEncodeIsTheInstruction : Obligations.DecodeOfEncodeIsTheInstruction :=
  fun _ _ hwf => decode_eq_ok_iff.mpr ⟨hwf, rfl⟩

/-- Settles O6: `decode_eq_ok_iff` from left to right. -/
theorem encodeOfDecodeIsTheBytes : Obligations.EncodeOfDecodeIsTheBytes :=
  fun _ _ _ h => decode_eq_ok_iff.mp h

/-- Settles O4: each word is evaluated by the decoder; there are no variables. -/
theorem specWordsDecode : Obligations.SpecWordsDecode := by
  unfold Obligations.SpecWordsDecode
  decide

end Sys2Proof.Proofs
end

section
/-! PROOFS. Fetch and step: a fetch completes exactly when the opcode byte and its operand bytes lie in memory, and a step runs
what was fetched. -/

namespace Sys2Proof

theorem Instr.length_eq_of_decodeFrom_ok {ε : Type} {fetch : Nat → Except ε Byte} {i : Instr} {b : Byte}
    (h : decodeFrom fetch = .ok i) (h0 : fetch 0 = .ok b) : i.length = 1 + operandCountOf b := by
  have hop := opcode_of_decodeFrom_ok h h0
  cases ho : Opcode.ofByte? b <;> simp [Instr.length, operandCountOf, hop, ho]

end Sys2Proof

namespace Sys2Proof.Machine

/-! ### Which fetches leave memory -/

/-- A fetched instruction is as long as its opcode byte says, and all of it lies in memory (R60, R126). -/
theorem fetchInstr_ok_inside {s : State} {i : Instr} (h : s.fetchInstr = .ok i) :
    i.length = 1 + operandCountOf (s.byteAt s.pc) ∧ s.pc + i.length ≤ Config.memSize := by
  obtain ⟨-, hbytes⟩ := fetchInstr_ok_iff.mp h
  have hread : ∀ k, k < i.length → s.pc + k < Config.memSize := fun k hk =>
    (hbytes k _ (List.getElem?_eq_getElem (by rwa [encode_length]))).1
  have hpos := i.one_le_length
  have hlast := hread (i.length - 1) (by omega)
  exact ⟨Instr.length_eq_of_decodeFrom_ok h (fetchByte_ok_iff.mpr ⟨hread 0 hpos, rfl⟩), by omega⟩

/-- A raise of the fetch means that a byte the opcode byte asks for lies outside memory (R126, R143). -/
theorem fetchInstr_error_outside {s : State} {r : Raise} (h : s.fetchInstr = .error r) :
    Config.memSize ≤ s.pc + operandCountOf (s.byteAt s.pc) := by
  rcases decodeFrom_error h with h0 | ⟨o, h0, hoperand⟩
  · have := (fetchByte_error_iff.mp h0).1
    omega
  · have hbyte : o.byte = s.byteAt s.pc := (fetchByte_ok_iff.mp h0).2
    rw [← hbyte, operandCountOf_byte]
    rcases hoperand with ⟨hcount, h1⟩ | ⟨hcount, -, h2⟩
    · have := (fetchByte_error_iff.mp h1).1
      omega
    · have := (fetchByte_error_iff.mp h2).1
      omega

/-- A fetch that asks for a byte outside memory raises. -/
theorem fetchInstr_raises_of_outside {s : State} (h : Config.memSize ≤ s.pc + operandCountOf (s.byteAt s.pc)) :
    ∃ r, s.fetchInstr = .error r := by
  cases hf : s.fetchInstr with
  | error r => exact ⟨r, rfl⟩
  | ok i =>
    obtain ⟨hlen, hinside⟩ := fetchInstr_ok_inside hf
    omega

/-- A Running step whose fetch asks for a byte outside memory records MEM_BOUNDS and changes nothing else; the address is the pc
when that is outside, otherwise 256, the first one past memory (R143, R144). -/
theorem step_outside {s : State} (hs : s.status = .running)
    (h : Config.memSize ≤ s.pc + operandCountOf (s.byteAt s.pc)) :
    step s = .next (s.takeFault ⟨.memBounds, max s.pc 256⟩) := by
  obtain ⟨⟨cause, info⟩, hf⟩ := fetchInstr_raises_of_outside h
  obtain ⟨rfl, hinfo⟩ := fetchInstr_error hf
  have hmax : info = max s.pc 256 := by
    change _ ∧ info = s.pc ∨ _ ∧ info = 256 at hinfo
    omega
  rw [step_of_fetch_error hs hf, hmax]

/-! ### When a step exists -/

/-- Every instruction answers a next state, its own or the faulted one (R121). -/
theorem exec_next (i : Instr) (s : State) : ∃ t, exec i s = .next t := by
  rcases exec_cases i with ⟨-, hs⟩ | ⟨-, b, -, hs⟩
  · obtain ⟨t, ht, -⟩ := hs s
    exact ⟨t, ht⟩
  · exact ⟨_, hs s⟩

theorem step_next_of_running {s : State} (hs : s.status = .running) : ∃ t, step s = .next t := by
  cases hf : s.fetchInstr with
  | ok i => rw [step_of_fetch_ok hs hf]; exact exec_next i s
  | error r => exact ⟨_, step_of_fetch_error hs hf⟩

theorem step_of_not_running {s : State} (hrun : s.running = false) (hfault : s.fault = none) : step s = .fault .halted := by
  simp [step, State.status, hrun, hfault]

theorem step_of_fault {s : State} {r : FaultRecord} (h : s.fault = some r) : step s = .fault (.faulted r) := by
  simp [step, State.status, h]

theorem State.memRead_error {s : State} {a : Nat} (h : Config.memSize ≤ a) : s.memRead a = .error ⟨.memBounds, a⟩ :=
  if_neg (Nat.not_lt.mpr h)

theorem State.memWrite_error {s : State} {a : Nat} {v : Int} (h : Config.memSize ≤ a) :
    s.memWrite a v = .error ⟨.memBounds, a⟩ :=
  if_neg (Nat.not_lt.mpr h)

end Sys2Proof.Machine

namespace Sys2Proof.Proofs

open Sys2Proof.Machine

/-- Settles O8: the list decoder and the fetch find the same instruction, which the step runs. -/
theorem stepRunsTheDecodedInstruction : Obligations.StepRunsTheDecodedInstruction :=
  fun _ _ _ hs h => step_of_fetch_ok hs (fetchInstr_of_decode_codeBytes h)

/-- Settles O9: a raise would need a byte outside memory. -/
theorem fetchInsideMemoryCompletes : Obligations.FetchInsideMemoryCompletes := by
  intro s h
  cases hf : s.fetchInstr with
  | ok i => exact ⟨i, rfl, (fetchInstr_ok_inside hf).1⟩
  | error r =>
    have := fetchInstr_error_outside hf
    simp only [Config.memSize] at this
    omega

/-- Settles O10: in each of the three clauses a byte asked for lies outside memory, and `step_outside` says what is recorded. -/
theorem fetchPastMemoryEndRecordsMemBounds : Obligations.FetchPastMemoryEndRecordsMemBounds := by
  refine fun s hs => ⟨fun hpc => ?_, fun hpc hcount => ?_, fun hpc hcount => ?_⟩
  · rw [step_outside hs (Nat.le_add_right_of_le hpc), Nat.max_eq_left hpc]
    rfl
  · rw [step_outside hs (by simp only [hpc, Config.memSize]; omega)]
    simp [State.takeFault, hpc]
  · rw [step_outside hs (by simp [hpc, hcount, Config.memSize])]
    simp [State.takeFault, hpc]

/-- Settles O11: the three cases of the status. -/
theorem onlyRunningStatesStep : Obligations.OnlyRunningStatesStep := by
  refine fun s => ⟨fun hrun hfault => ?_, step_of_not_running, fun r => step_of_fault⟩
  exact step_next_of_running ((State.status_running_iff s).mpr ⟨hfault, hrun⟩)

/-- Settles O52: the bounds check of each access fails. -/
theorem accessOutsideMemoryRaisesMemBounds : Obligations.AccessOutsideMemoryRaisesMemBounds :=
  fun _ _ _ h => ⟨State.memRead_error h, State.memWrite_error h⟩

end Sys2Proof.Proofs
end

section
/-! PROOFS. What each instruction does on legal registers: the whole next state, with register values written out modulo 256. -/

namespace Sys2Proof.Machine

/-! ### Register writes and SP arithmetic, modulo 256 -/

/-- A natural number written to a register puts its residue there and changes nothing else (R22). -/
theorem State.setReg_nat (s : State) (i : RegIndex) (n : Nat) :
    s.setReg i n = { s with regs := s.regs.set i.val (BitVec.ofNat 8 (n % 256)) i.isLt } := by
  rw [← wrap_nat_eq_ofNat_mod]
  rfl

/-- A byte written to a register is put there unchanged. -/
theorem State.setReg_byte (s : State) (i : RegIndex) (b : Byte) :
    s.setReg i b.toNat = { s with regs := s.regs.set i.val b i.isLt } := by
  rw [State.setReg, wrap_byte]

/-- A decrement of a byte is an increment by 255, modulo 256. -/
theorem wrap_pred_toNat (b : Byte) : (wrap (b.toNat - 1)).toNat = (b.toNat + 255) % 256 := by
  have := wrap_toNat (b.toNat - 1)
  omega

theorem wrap_pred (b : Byte) : wrap (b.toNat - 1) = BitVec.ofNat 8 ((b.toNat + 255) % 256) := by
  rw [← wrap_pred_toNat, BitVec.ofNat_toNat, BitVec.setWidth_eq]

/-- Moving SP down and up again restores it (R94). -/
@[simp] theorem wrap_succ_pred (b : Byte) : wrap ((wrap (b.toNat - 1)).toNat + 1) = b := by
  apply BitVec.eq_of_toNat_eq
  have hup := wrap_toNat ((wrap (b.toNat - 1)).toNat + 1)
  have hdown := wrap_pred_toNat b
  have := b.isLt
  omega

/-! ### The comparison flags -/

theorem compareFlags_e_iff (va vb : Byte) : (compareFlags va vb).e = true ↔ va.toNat = vb.toNat := by
  unfold compareFlags
  split
  case isTrue h => simp [h]
  case isFalse h => split <;> simp [h]

theorem compareFlags_l_iff (va vb : Byte) : (compareFlags va vb).l = true ↔ va.toNat < vb.toNat := by
  unfold compareFlags
  split
  case isTrue h => simp [h]
  case isFalse => split <;> simp [*]

theorem compareFlags_g_iff (va vb : Byte) : (compareFlags va vb).g = true ↔ vb.toNat < va.toNat := by
  unfold compareFlags
  split
  case isTrue h => simp [h]
  case isFalse => split <;> simp <;> omega

end Sys2Proof.Machine

namespace Sys2Proof.Proofs

open Sys2Proof.Machine

/-- Settles O12: ADD is one register write of the exact sum. -/
theorem addStoresTheSumModulo256 : Obligations.AddStoresTheSumModulo256 := by
  intro s i j
  rw [exec_add_legal, State.alu_add_eq_setReg, State.setReg_nat]
  rfl

/-- Settles O13: MUL is one register write of the exact product. -/
theorem mulStoresTheProductModulo256 : Obligations.MulStoresTheProductModulo256 := by
  intro s i j
  rw [exec_mul_legal, State.alu_mul_eq_setReg, State.setReg_nat]
  rfl

/-- Settles O14: CMP is one write of `compareFlags`, whose three flags are the three outcomes of the comparison. -/
theorem cmpSetsExactlyOneFlag : Obligations.CmpSetsExactlyOneFlag :=
  fun s i j => ⟨compareFlags (s.reg i) (s.reg j), exec_cmp_legal i j s, compareFlags_e_iff _ _, compareFlags_l_iff _ _,
    compareFlags_g_iff _ _⟩

/-- Settles O15: the register is read in the state in which SP has moved, so R7 gives the new SP. -/
theorem pushStoresBelowTheStackPointer : Obligations.PushStoresBelowTheStackPointer := by
  rintro s i a rfl
  have haddr := wrap_pred_toNat s.sp
  refine ⟨_, exec_push_legal i s, congrArg (s.regs.set 7) (wrap_pred s.sp), ?_, fun b hb => ?_, rfl, rfl, rfl, rfl, rfl⟩
  · rw [State.advance_byteAt, State.pushed_byteAt, if_pos haddr.symm, wrap_byte, State.setSp_reg, wrap_pred]
    exact ite_congr (propext eq_comm) (fun _ => rfl) fun _ => rfl
  · rw [State.advance_byteAt, State.pushed_byteAt, if_neg (haddr ▸ hb)]

/-- Settles O16: SP is written last, from its value after the register write, which is the popped byte for R7. -/
theorem popLoadsTheByteAtTheStackPointer : Obligations.PopLoadsTheByteAtTheStackPointer := by
  rintro s i v rfl
  have hsp : (s.setReg i (s.byteAt s.sp.toNat).toNat).sp = if i = 7 then s.byteAt s.sp.toNat else s.sp := by
    rw [State.sp, State.setReg_reg, wrap_byte]
    rfl
  rw [exec_pop_legal, hsp, ← Int.natCast_succ, State.setSp_nat, State.setReg_byte]
  by_cases hi : i = 7
  · subst hi
    rw [if_pos rfl, if_pos rfl]
    exact congrArg (fun r => Host.Outcome.next { s with regs := r, pc := s.pc + 2 }) (Vector.set_set _ _)
  · rw [if_neg hi, if_neg hi]
    rfl

/-- Settles O17: the target is read in the state in which SP has moved, so R7 gives the new SP. -/
theorem callStoresTheReturnAddressAndJumps : Obligations.CallStoresTheReturnAddressAndJumps := by
  rintro s i a rfl
  have haddr := wrap_pred_toNat s.sp
  refine ⟨_, exec_call_legal i s, congrArg (s.regs.set 7) (wrap_pred s.sp), ?_, fun b hb => ?_, ?_, rfl, rfl, rfl, rfl⟩
  · rw [State.jumpTo_byteAt, State.pushed_byteAt, if_pos haddr.symm, wrap_nat_eq_ofNat_mod]
  · rw [State.jumpTo_byteAt, State.pushed_byteAt, if_neg (haddr ▸ hb)]
  · rw [State.jumpTo_pc, State.setSp_reg, apply_ite BitVec.toNat, haddr]
    exact ite_congr (propext eq_comm) (fun _ => rfl) fun _ => rfl

/-- Settles O19: the legal-operand law of JMP, its state update written out. -/
theorem jmpSetsThePcToTheRegister : Obligations.JmpSetsThePcToTheRegister :=
  fun s i => exec_jmp_legal i s

/-- Settles O20: the legal-operand law of JEQ, for each value of E. -/
theorem jeqJumpsOnlyIfEqualIsSet : Obligations.JeqJumpsOnlyIfEqualIsSet := by
  refine fun s i => ⟨fun he => ?_, fun he => ?_⟩
  · rw [exec_jeq_legal, he]; rfl
  · rw [exec_jeq_legal, he]; rfl

/-- Settles O21: the legal-operand law of JNE, for each value of E. -/
theorem jneJumpsOnlyIfEqualIsClear : Obligations.JneJumpsOnlyIfEqualIsClear := by
  refine fun s i => ⟨fun he => ?_, fun he => ?_⟩
  · rw [exec_jne_legal, he]; rfl
  · rw [exec_jne_legal, he]; rfl

/-- Settles O22: LDI is one register write of a byte. -/
theorem ldiLoadsTheImmediate : Obligations.LdiLoadsTheImmediate := by
  intro s i v
  rw [exec_ldi_legal, State.setReg_byte]
  rfl

/-- Settles O23: the legal-operand law of PRN, its state update written out. -/
theorem prnEmitsTheRegister : Obligations.PrnEmitsTheRegister :=
  fun s i => exec_prn_legal i s

/-- Settles O24: HLT's next state is not Running, whatever its memory. -/
theorem hltStopsTheMachine : Obligations.HltStopsTheMachine := by
  refine fun s => ⟨exec_hlt s, fun t ht hfault m => step_of_not_running ?_ hfault⟩
  exact (exec_running_eq ht).trans (if_pos rfl)

end Sys2Proof.Proofs
end

section
/-! PROOFS. What each instruction changes, said once for each field of the state, and the frames that follow. -/

namespace Sys2Proof.Machine

/-! ### Registers -/

@[simp] theorem regByte_inj {i j : RegIndex} : regByte i = regByte j ↔ i = j := ⟨regByte_injective, congrArg regByte⟩

/-- The registers an instruction may write: its destination, and x[7] for the four stack instructions (R24). -/
def writesRegister (i : Instr) (k : RegIndex) : Bool :=
  match i with
  | .push _ | .call _ | .ret => k == Config.spIndex
  | .pop r => k == Config.spIndex || r == regByte k
  | .ldi r _ | .add r _ | .mul r _ => r == regByte k
  | .prn _ | .jmp _ | .jeq _ | .jne _ | .cmp _ _ | .hlt | .unrecognized _ => false

/-- An instruction keeps every register it does not write. -/
theorem exec_reg_eq {i : Instr} {s t : State} {k : RegIndex} (h : exec i s = .next t) (hk : writesRegister i k = false) :
    t.reg k = s.reg k := by
  rcases exec_next_cases h with ⟨-, he⟩ | ⟨-, b, -, rfl⟩
  · cases he
    case hlt | unrecognized | prn | jmp | cmp => rfl
    case jeq | jne => split <;> rfl
    case ret =>
      have hsp : k ≠ Config.spIndex := by simpa [writesRegister] using hk
      simp [hsp.symm]
    case push | call =>
      have hsp : k ≠ Config.spIndex := by simpa [writesRegister] using hk
      simp [State.pushed_reg, hsp.symm]
    case pop j =>
      obtain ⟨hsp, hj⟩ : k ≠ Config.spIndex ∧ j ≠ k := by simpa [writesRegister] using hk
      simp [hsp.symm, hj]
    case ldi j _ | add j _ | mul j _ =>
      have hj : j ≠ k := by simpa [writesRegister] using hk
      simp [State.alu, hj]
  · rfl

/-! ### Flags, Running, output, fault status -/

theorem exec_fl_of_ne_cmp {i : Instr} {s t : State} (h : exec i s = .next t) (hi : i.opcode ≠ some .cmp) : t.fl = s.fl :=
  (exec_fl_eq h).trans (if_neg fun hc => hi hc.1)

theorem exec_running_of_ne_hlt {i : Instr} {s t : State} (h : exec i s = .next t) (hi : i ≠ .hlt) : t.running = s.running :=
  (exec_running_eq h).trans (if_neg hi)

theorem exec_out_of_ne_prn {i : Instr} {s t : State} (h : exec i s = .next t) (hi : ∀ k, i ≠ .prn (regByte k)) :
    t.out = s.out :=
  (exec_out_cases h).resolve_right fun ⟨k, hk, _⟩ => hi k hk

/-- An instruction's own effect records no fault. -/
theorem Effect.fault_eq {i : Instr} {s t : State} (h : Effect i s t) : t.fault = s.fault := by
  cases h
  case jeq | jne => split <;> rfl
  all_goals simp

/-- An instruction with legal registers keeps the fault status. -/
theorem exec_fault_eq {i : Instr} {s t : State} (h : exec i s = .next t) (hi : i.registersInRange = true) :
    t.fault = s.fault := by
  rcases exec_next_cases h with ⟨-, he⟩ | ⟨hr, -⟩
  · exact he.fault_eq
  · rw [hi] at hr
    cases hr

/-! ### Memory -/

@[simp] theorem State.pushed_mem (s : State) (v : State → Int) :
    (s.pushed v).mem =
      Memory.store s.mem (wrap (s.sp.toNat - 1)).toNat (wrap (v (s.setSp (s.sp.toNat - 1)))) := by
  simp [State.pushed]

theorem State.byteAt_congr {s t : State} (h : t.mem = s.mem) (a : Nat) : t.byteAt a = s.byteAt a :=
  congrArg (Memory.lookup · a) h

/-- Only PUSH and CALL write memory, one byte at the decremented SP. -/
theorem exec_mem_cases {i : Instr} {s t : State} (h : exec i s = .next t) :
    t.mem = s.mem ∨
      (∃ r, i = .push r ∨ i = .call r) ∧ ∃ v, t.mem = Memory.store s.mem (wrap (s.sp.toNat - 1)).toNat v := by
  rcases exec_next_cases h with ⟨-, he⟩ | ⟨-, b, -, rfl⟩
  · cases he
    case push j => exact .inr ⟨⟨_, .inl rfl⟩, _, (State.advance_mem _ _).trans (s.pushed_mem _)⟩
    case call j => exact .inr ⟨⟨_, .inr rfl⟩, _, (State.jumpTo_mem _ _).trans (s.pushed_mem _)⟩
    case jeq | jne => left; split <;> rfl
    all_goals left; simp
  · exact .inl rfl

theorem exec_mem_of_ne_push_call {i : Instr} {s t : State} (h : exec i s = .next t)
    (hi : ∀ r, i ≠ .push r ∧ i ≠ .call r) : t.mem = s.mem := by
  rcases exec_mem_cases h with hm | ⟨⟨r, hp | hc⟩, -⟩
  · exact hm
  · exact absurd hp (hi r).1
  · exact absurd hc (hi r).2

/-- Every instruction keeps every byte but the one at the decremented SP. -/
theorem exec_byteAt_eq {i : Instr} {s t : State} {a : Nat} (h : exec i s = .next t)
    (ha : a ≠ (wrap (s.sp.toNat - 1)).toNat) : t.byteAt a = s.byteAt a := by
  rcases exec_mem_cases h with hm | ⟨-, v, hm⟩
  · exact State.byteAt_congr hm a
  · unfold State.byteAt
    rw [hm, Memory.lookup_store, if_neg ha]

end Sys2Proof.Machine

namespace Sys2Proof.Proofs

open Sys2Proof.Machine

/-- Settles O27: `exec_cases` gives the next state, and an own effect keeps the fault status. -/
theorem legalInstructionsNeverFault : Obligations.LegalInstructionsNeverFault := by
  intro s i hi
  obtain ⟨t, ht⟩ := exec_next i s
  exact ⟨t, ht, exec_fault_eq ht hi⟩

/-- Settles O28: the three write their destination register and no other field but the pc. -/
theorem arithmeticAndLoadImmediateFrame : Obligations.ArithmeticAndLoadImmediateFrame := by
  intro s t d x i hi h
  rcases hi with rfl | rfl | rfl
  all_goals
    exact ⟨fun k hk => exec_reg_eq h (by simpa [writesRegister] using hk.symm), exec_fl_of_ne_cmp h nofun,
      exec_running_of_ne_hlt h nofun, exec_out_of_ne_prn h nofun,
      State.byteAt_congr (exec_mem_of_ne_push_call h fun _ => ⟨nofun, nofun⟩), exec_fault_eq h⟩

/-- Settles O29: CMP writes no register, no memory, neither Running nor the output. -/
theorem compareFrame : Obligations.CompareFrame :=
  fun _ _ _ _ h => ⟨fun _ => exec_reg_eq h rfl, exec_running_of_ne_hlt h nofun, exec_out_of_ne_prn h nofun,
    State.byteAt_congr (exec_mem_of_ne_push_call h fun _ => ⟨nofun, nofun⟩), exec_fault_eq h⟩

/-- Settles O30: the two write SP and the byte at the decremented SP. -/
theorem pushAndCallFrame : Obligations.PushAndCallFrame := by
  intro s t r i hi h
  rcases hi with rfl | rfl
  all_goals
    exact ⟨fun k hk => exec_reg_eq h (by simpa [writesRegister] using hk), exec_fl_of_ne_cmp h nofun,
      exec_running_of_ne_hlt h nofun, exec_out_of_ne_prn h nofun, fun a ha => exec_byteAt_eq h ha, exec_fault_eq h⟩

/-- Settles O31: the two write SP, and POP its destination. -/
theorem popAndRetFrame : Obligations.PopAndRetFrame := by
  intro s t i hi h
  rcases hi with ⟨r, rfl⟩ | rfl
  all_goals
    exact ⟨fun k hk hne => exec_reg_eq h (by simp_all [writesRegister]), exec_fl_of_ne_cmp h nofun,
      exec_running_of_ne_hlt h nofun, exec_out_of_ne_prn h nofun,
      State.byteAt_congr (exec_mem_of_ne_push_call h fun _ => ⟨nofun, nofun⟩), exec_fault_eq h⟩

/-- Settles O32: the six write no register, no flag and no memory; only HLT writes Running, only PRN the output. -/
theorem branchOutputAndHaltFrame : Obligations.BranchOutputAndHaltFrame := by
  intro s t r i hi h
  have hout : i ≠ .prn r → ∀ k, i ≠ .prn (regByte k) := by
    rintro hne k rfl
    obtain rfl : regByte k = r := by simpa using hi
    exact hne rfl
  rcases hi with rfl | rfl | rfl | rfl | rfl | rfl
  all_goals
    exact ⟨fun _ => exec_reg_eq h rfl, exec_fl_of_ne_cmp h nofun,
      State.byteAt_congr (exec_mem_of_ne_push_call h fun _ => ⟨nofun, nofun⟩), exec_running_of_ne_hlt h,
      fun hne => exec_out_of_ne_prn h (hout hne), exec_fault_eq h⟩

end Sys2Proof.Proofs
end

section
/-! PROOFS. Rules of every instruction: the pc, illegal register operands, and the registers an instruction does not use. -/

namespace Sys2Proof.Machine

/-! ### Illegal register operands -/

/-- The first register operand byte of 8 or more is the one reported, and nothing else changes (R142, R144, R148). -/
theorem exec_first_illegal {i : Instr} {b : Byte} (h : (i.regOperands.find? fun c => decide (8 ≤ c.toNat)) = some b)
    (s : State) : exec i s = .next (s.takeFault ⟨.illegalRegister, b.toNat⟩) := by
  cases i
  case hlt | ret | unrecognized => cases h
  case add a c | mul a c | cmp a c =>
    by_cases ha : 8 ≤ a.toNat
    · obtain rfl : a = b := by simpa [Instr.regOperands, ha] using h
      exact attempt_regIdx_illegal ha
    · obtain ⟨hc, rfl⟩ : 8 ≤ c.toNat ∧ c = b := by simpa [Instr.regOperands, ha] using h
      rw [byte_eq_regByte (Nat.lt_of_not_le ha)]
      exact (attempt_regIdx_legal s _ _).trans (attempt_regIdx_illegal hc)
  case ldi r _ | push r | pop r | prn r | call r | jmp r | jeq r | jne r =>
    obtain ⟨hr, rfl⟩ : 8 ≤ r.toNat ∧ r = b := by simpa [Instr.regOperands] using h
    exact attempt_regIdx_illegal hr

/-! ### Registers an instruction does not use -/

theorem ne_of_not_uses {i : Instr} {j k : RegIndex} (h : usesRegister i k = false) (hj : regByte j ∈ i.regOperands) :
    j ≠ k := by
  rintro rfl
  simp [usesRegister, hj] at h

theorem spIndex_ne_of_not_uses {i : Instr} {k : RegIndex} (h : usesRegister i k = false)
    (hi : i.opcode ∈ [some .push, some .pop, some .call, some .ret]) : Config.spIndex ≠ k := by
  rintro rfl
  cases i <;> simp_all [usesRegister, Instr.opcode]

/-- An instruction writes only registers it uses. -/
theorem writesRegister_of_not_uses {i : Instr} {k : RegIndex} (h : usesRegister i k = false) : writesRegister i k = false := by
  cases i <;> grind [usesRegister, writesRegister, Instr.regOperands, Instr.opcode]

section
variable (s : State) {i j k : RegIndex} (v : Int)

theorem State.setReg_reg_of_ne (h : j ≠ k) : (s.setReg k v).reg j = s.reg j := by
  rw [State.setReg_reg, if_neg h.symm]

theorem State.setReg_sp_of_ne (h : Config.spIndex ≠ k) : (s.setReg k v).sp = s.sp := s.setReg_reg_of_ne v h

theorem State.setReg_comm (x : Int) (h : j ≠ k) : (s.setReg j x).setReg k v = (s.setReg k v).setReg j x := by
  have hval : j.val ≠ k.val := fun he => h (Fin.ext he)
  simp only [State.setReg, Vector.set_comm _ _ hval]

theorem State.setSp_setReg (x : Int) (h : Config.spIndex ≠ k) : (s.setSp x).setReg k v = (s.setReg k v).setSp x :=
  s.setReg_comm v x h

/-- Writing a register that is not an operand commutes with the ALU. -/
theorem State.alu_setReg (op : AluOp) (hi : i ≠ k) (hj : j ≠ k) : (s.alu op i j).setReg k v = (s.setReg k v).alu op i j := by
  unfold State.alu
  rw [s.setReg_reg_of_ne v hi, s.setReg_reg_of_ne v hj]
  cases op
  case add | mul => exact s.setReg_comm v _ hi
  case cmp => rfl

/-- Writing a register other than SP commutes with a push whose value does not depend on that register. -/
theorem State.pushed_setReg {f g : State → Int} (hsp : Config.spIndex ≠ k)
    (hfg : f (s.setSp (s.sp.toNat - 1)) = g ((s.setReg k v).setSp (s.sp.toNat - 1))) :
    (s.pushed f).setReg k v = (s.setReg k v).pushed g := by
  dsimp only [State.pushed]
  rw [s.setReg_sp_of_ne v hsp, hfg, State.setSp_sp, State.setSp_sp, ← s.setSp_setReg v _ hsp]
  rfl

/-- An instruction's own effect commutes with writing a register it does not use: it neither reads nor overwrites it (R24). -/
theorem Effect.setReg {s t : State} {instr : Instr} (h : Effect instr s t) (hk : usesRegister instr k = false) :
    Effect instr (s.setReg k v) (t.setReg k v) := by
  have hop : ∀ l, regByte l ∈ instr.regOperands → l ≠ k := fun l => ne_of_not_uses hk
  have hsp := spIndex_ne_of_not_uses hk
  cases h
  case hlt => exact .hlt _
  case unrecognized op => exact .unrecognized op _
  case prn j =>
    have he := Effect.prn j (s.setReg k v)
    rwa [s.setReg_reg_of_ne v (hop j (.head _))] at he
  case jmp j =>
    have he := Effect.jmp j (s.setReg k v)
    rwa [s.setReg_reg_of_ne v (hop j (.head _))] at he
  case jeq j =>
    have he := Effect.jeq j (s.setReg k v)
    rw [s.setReg_reg_of_ne v (hop j (.head _))] at he
    rwa [apply_ite (State.setReg · k v)]
  case jne j =>
    have he := Effect.jne j (s.setReg k v)
    rw [s.setReg_reg_of_ne v (hop j (.head _))] at he
    rwa [apply_ite (State.setReg · k v)]
  case ldi j x =>
    have he := Effect.ldi j x (s.setReg k v)
    rwa [← s.setReg_comm v _ (hop j (.head _))] at he
  case add j l =>
    have he := Effect.add j l (s.setReg k v)
    rwa [← s.alu_setReg v .add (hop j (.head _)) (hop l (.tail _ (.head _)))] at he
  case mul j l =>
    have he := Effect.mul j l (s.setReg k v)
    rwa [← s.alu_setReg v .mul (hop j (.head _)) (hop l (.tail _ (.head _)))] at he
  case cmp j l =>
    have he := Effect.cmp j l (s.setReg k v)
    rwa [← s.alu_setReg v .cmp (hop j (.head _)) (hop l (.tail _ (.head _)))] at he
  case ret =>
    have hsp := hsp (by decide)
    have he := Effect.ret (s.setReg k v)
    rwa [s.setReg_sp_of_ne v hsp, ← s.setSp_setReg v _ hsp] at he
  case push j =>
    have he := Effect.push j (s.setReg k v)
    have hsp := hsp (by simp [Instr.opcode])
    rwa [← s.pushed_setReg v (f := fun t => (t.reg j).toNat) hsp] at he
    rw [← s.setSp_setReg v _ hsp, State.setReg_reg_of_ne _ v (hop j (.head _))]
  case call j =>
    have he := Effect.call j (s.setReg k v)
    have hsp := hsp (by simp [Instr.opcode])
    rwa [← s.pushed_setReg v (f := fun _ => (s.pc + 2 : Nat)) hsp rfl, s.setReg_sp_of_ne v hsp, ← s.setSp_setReg v _ hsp,
      State.setReg_reg_of_ne _ v (hop j (.head _))] at he
  case pop j =>
    have he := Effect.pop j (s.setReg k v)
    have hsp := hsp (by simp [Instr.opcode])
    rwa [s.setReg_sp_of_ne v hsp, State.setReg_byteAt, ← s.setReg_comm v _ (hop j (.head _)), State.setReg_sp_of_ne _ v hsp,
      ← State.setSp_setReg _ v _ hsp] at he
end

/-- An instruction does the same from a state in which a register it does not use holds another value (R24). -/
theorem exec_setReg {i : Instr} {s t : State} {k : RegIndex} (v : Int) (h : exec i s = .next t)
    (hk : usesRegister i k = false) : exec i (s.setReg k v) = .next (t.setReg k v) := by
  rcases exec_cases i with ⟨-, hs⟩ | ⟨-, b, -, hs⟩
  · obtain ⟨u, hu, he⟩ := hs s
    cases hu.symm.trans h
    exact exec_of_effect (he.setReg v hk)
  · cases (hs s).symm.trans h
    exact hs _

end Sys2Proof.Machine

namespace Sys2Proof.Proofs

open Sys2Proof.Machine

/-- Settles O26: `exec_first_illegal`, the recorded fault written out. -/
theorem illegalRegisterByteFaultsWithoutEffect : Obligations.IllegalRegisterByteFaultsWithoutEffect :=
  fun s _ _ h => exec_first_illegal h s

/-- Settles O33: the pc of each instruction's own effect. -/
theorem pcAdvancesByLengthUnlessTransferred : Obligations.PcAdvancesByLengthUnlessTransferred := by
  intro s t i hr h
  rcases exec_next_cases h with ⟨-, he⟩ | ⟨hr', -⟩
  · cases he
    case jmp j =>
      intro k hk
      rw [regByte_injective hk, State.jumpTo_pc]
    case jeq j | jne j =>
      intro k hk
      rw [regByte_injective hk]
      split <;> rfl
    case call j =>
      intro k hk
      rw [regByte_injective hk]
      rfl
    all_goals rfl
  · rw [hr] at hr'
    cases hr'

/-- Settles O38: a register that is not used is not written, and writing it commutes with the instruction. -/
theorem unusedRegistersNeitherChangeNorMatter : Obligations.UnusedRegistersNeitherChangeNorMatter :=
  fun _ _ _ _ v hk h => ⟨exec_reg_eq h (writesRegister_of_not_uses hk), exec_setReg v h hk⟩

end Sys2Proof.Proofs
end

section
/-! PROOFS. Rules of every step: memory writes, the faults it can record, where it leaves the pc, and the invariant. -/

namespace Sys2Proof.Machine

/-! ### The pc -/

/-- An instruction keeps the pc (a fault), advances it by its length, or sets it to a byte (R103, R125). -/
theorem exec_pc_cases {i : Instr} {s t : State} (h : exec i s = .next t) :
    t.pc = s.pc ∨ t.pc = s.pc + i.length ∨ t.pc < Config.memSize := by
  rcases exec_next_cases h with ⟨-, he⟩ | ⟨-, b, -, rfl⟩
  · cases he
    case jmp | call | ret => exact .inr (.inr (BitVec.isLt _))
    case jeq =>
      split
      · exact .inr (.inr (BitVec.isLt _))
      · exact .inr (.inl rfl)
    case jne =>
      split
      · exact .inr (.inl rfl)
      · exact .inr (.inr (BitVec.isLt _))
    all_goals exact .inr (.inl rfl)
  · exact .inl rfl

/-- A step keeps the pc or leaves it within memory or just past it: a fetched instruction lies wholly in memory (R27, R143). -/
theorem step_pc_cases {s t : State} (h : step s = .next t) : t.pc = s.pc ∨ t.pc ≤ 256 := by
  obtain ⟨-, ⟨i, hf, he⟩ | ⟨r, -, rfl⟩⟩ := step_next_cases h
  · have hinside := (fetchInstr_ok_inside hf).2
    have hpc := exec_pc_cases he
    simp only [Config.memSize] at hinside hpc
    omega
  · exact .inl rfl

/-! ### Recorded faults -/

/-- A step that leaves a fault record took one fatal condition and did nothing else: a raise of the fetch, or ILLEGAL_REGISTER
with a byte of 8 or more (R142, R144). -/
theorem step_fault_cases {s t : State} (h : step s = .next t) (hfault : t.fault ≠ none) :
    ∃ r, t = s.takeFault r ∧
      (s.fetchInstr = .error r ∨ (r.cause = .illegalRegister ∧ 8 ≤ r.info ∧ r.info ≤ 255)) := by
  obtain ⟨hs, ⟨i, -, he⟩ | ⟨r, hf, rfl⟩⟩ := step_next_cases h
  · rcases exec_next_cases he with ⟨-, heff⟩ | ⟨-, b, hb, rfl⟩
    · exact absurd (heff.fault_eq.trans ((State.status_running_iff s).mp hs).1) hfault
    · exact ⟨_, rfl, .inr ⟨rfl, hb, Nat.le_of_lt_succ b.isLt⟩⟩
  · exact ⟨r, rfl, .inl hf⟩

/-- The record a step leaves: MEM_BOUNDS or ILLEGAL_REGISTER, with the values the spec gives them (R141, R143). -/
theorem step_fault_record {s t : State} {r : FaultRecord} (h : step s = .next t) (hr : t.fault = some r) :
    r.faultPc = s.pc ∧ t.pc = s.pc ∧
      ((r.cause = .memBounds ∧ ((256 ≤ s.pc ∧ r.info = s.pc) ∨ ((s.pc = 254 ∨ s.pc = 255) ∧ r.info = 256))) ∨
        (r.cause = .illegalRegister ∧ 8 ≤ r.info ∧ r.info ≤ 255)) := by
  obtain ⟨q, rfl, hq⟩ := step_fault_cases h (by simp [hr])
  cases hr
  exact ⟨rfl, rfl, hq.imp_left fetchInstr_error⟩

/-! ### The invariant, field by field -/

/-- An instruction keeps the flags or sets them by a comparison (R30). -/
theorem exec_fl_cases {i : Instr} {s t : State} (h : exec i s = .next t) :
    t.fl = s.fl ∨ ∃ va vb, t.fl = compareFlags va vb := by
  rcases exec_next_cases h with ⟨-, he⟩ | ⟨-, b, -, rfl⟩
  · cases he
    case cmp j l => exact .inr ⟨s.reg j, s.reg l, rfl⟩
    case jeq | jne => left; split <;> rfl
    all_goals exact .inl rfl
  · exact .inl rfl

theorem step_keeps_exclusive {s t : State} (hs : s.fl.exclusive = true) (h : step s = .next t) : t.fl.exclusive = true := by
  obtain ⟨-, ⟨i, -, he⟩ | ⟨r, -, rfl⟩⟩ := step_next_cases h
  · rcases exec_fl_cases he with hfl | ⟨va, vb, hfl⟩
    · rw [hfl, hs]
    · have hone := compareFlags_exactlyOne va vb
      rw [Flags.exactlyOne, Bool.and_eq_true] at hone
      rw [hfl, hone.1]
  · exact hs

theorem step_keeps_wf {s t : State} (hs : Memory.wf s.mem = true) (h : step s = .next t) : Memory.wf t.mem = true := by
  obtain ⟨-, ⟨i, -, he⟩ | ⟨r, -, rfl⟩⟩ := step_next_cases h
  · rcases exec_mem_cases he with hm | ⟨-, v, hm⟩
    · rw [hm, hs]
    · rw [hm]
      exact Memory.wf_store _ v hs (BitVec.isLt _)
  · exact hs

theorem step_fault_legal {s t : State} {r : FaultRecord} (hpc : s.pc ≤ 258) (h : step s = .next t) (hr : t.fault = some r) :
    r.legal t.pc = true := by
  obtain ⟨cause, info, faultPc⟩ := r
  obtain ⟨rfl, ht, ⟨rfl, hinfo⟩ | ⟨rfl, hinfo⟩⟩ := step_fault_record h hr
  · simp only [FaultRecord.legal, ht, beq_self_eq_true, Bool.true_and, Bool.and_eq_true, decide_eq_true_eq]
    dsimp only at hinfo
    omega
  · simpa [FaultRecord.legal, ht] using hinfo

/-- The launch flags are mutually exclusive for every FL_RESET (R31). -/
theorem flagsOf_exclusive (fl : FlReset) : (flagsOf fl).exclusive = true := by
  cases fl <;> rfl

theorem launch_inv (fl : FlReset) {m0 : Memory} (h : Memory.wf m0 = true) : (State.launch fl m0).Inv :=
  ⟨Nat.zero_le _, flagsOf_exclusive fl, h, nofun⟩

end Sys2Proof.Machine

namespace Sys2Proof.Proofs

open Sys2Proof.Machine

/-- Settles O44: each of the four parts of the invariant is kept by a step; only the fault part needs the pc's bound. -/
theorem stepKeepsTheInvariant : Obligations.StepKeepsTheInvariant := by
  rintro s t ⟨hpc, hfl, hmem, -⟩ h
  refine ⟨?_, step_keeps_exclusive hfl h, step_keeps_wf hmem h, fun r hr => step_fault_legal hpc h hr⟩
  have := step_pc_cases h
  omega

/-- Settles O46: a pc that a step moves is at most 256 afterwards. -/
theorem pcNeverPasses256 : Obligations.PcNeverPasses256 := by
  intro s t hpc h
  have := step_pc_cases h
  omega

/-- Settles O45: the launch state meets the invariant over canonical memory, and the empty memory of reset is canonical. -/
theorem launchMeetsTheInvariant : Obligations.LaunchMeetsTheInvariant :=
  ⟨fun fl _ h => launch_inv fl h, launch_inv Config.flReset Memory.wf_nil⟩

/-- Settles O49: reset's fields are literals, and an empty memory reads as the fill everywhere. -/
theorem resetTakesTheNamedDefaults : Obligations.ResetTakesTheNamedDefaults :=
  ⟨rfl, Memory.lookup_nil, launch_status _ _, rfl, rfl, rfl⟩

/-- Settles O39: a step that leaves a fault record is one `takeFault`. -/
theorem faultsCommitNothing : Obligations.FaultsCommitNothing := by
  intro s t h hfault
  obtain ⟨r, rfl, -⟩ := step_fault_cases h hfault
  exact ⟨⟨r.cause, r.info, s.pc⟩, rfl, rfl⟩

/-- Settles O40: the record of `step_fault_record`. -/
theorem onlyReachableFaultsAreRecorded : Obligations.OnlyReachableFaultsAreRecorded := by
  intro s t r h hr
  obtain ⟨-, -, hcause⟩ := step_fault_record h hr
  exact hcause

/-- Settles O37: a raise of the fetch keeps memory, and of the instructions only PUSH and CALL do not. -/
theorem onlyPushAndCallWriteMemory : Obligations.OnlyPushAndCallWriteMemory := by
  intro s t h hne
  obtain ⟨-, ⟨i, hf, he⟩ | ⟨r, -, rfl⟩⟩ := step_next_cases h
  · obtain ⟨⟨r, hi⟩, hstore⟩ := (exec_mem_cases he).resolve_left hne
    exact ⟨⟨r, by simpa [hf] using hi⟩, hstore⟩
  · exact absurd rfl hne

end Sys2Proof.Proofs
end

section
/-! PROOFS. Memory as a whole: the canonical form is determined by its reads, and the loader writes an image in order. -/

namespace Sys2Proof.Machine

/-! ### The canonical form -/

/-- A read that does not answer the fill answers an entry. -/
theorem Memory.mem_of_lookup_ne {m : Memory} {a : Nat} (h : Memory.lookup m a ≠ Config.memFill) :
    (a, Memory.lookup m a) ∈ m := by
  induction m with
  | nil => exact absurd rfl h
  | cons c m ih =>
    rw [Memory.lookup_cons] at h ⊢
    split
    case isTrue hc => exact hc ▸ .head m
    case isFalse hc =>
      rw [if_neg hc] at h
      exact .tail c (ih h)

/-- In a list with rising addresses an entry is what its address reads as. -/
theorem Memory.lookup_of_mem {m : Memory} (hp : m.Pairwise fun c d => c.1 < d.1) {c : Host.Cell} (hc : c ∈ m) :
    Memory.lookup m c.1 = c.2 := by
  induction hp with
  | nil => cases hc
  | cons hlt _ ih =>
    rw [Memory.lookup_cons]
    rcases List.mem_cons.mp hc with rfl | hc
    · exact if_pos rfl
    · rw [if_neg (Nat.ne_of_lt (hlt c hc)), ih hc]

/-- The entries of a canonical memory are its reads that do not answer the fill. -/
theorem Memory.mem_iff_of_wf {m : Memory} (h : Memory.wf m = true) (c : Host.Cell) :
    c ∈ m ↔ c.1 < Config.memSize ∧ c.2 ≠ Config.memFill ∧ Memory.lookup m c.1 = c.2 := by
  obtain ⟨hp, hm⟩ := (Memory.wf_iff m).mp h
  constructor
  · intro hc
    exact ⟨(hm c hc).1, (hm c hc).2, Memory.lookup_of_mem hp hc⟩
  · rintro ⟨-, hfill, hread⟩
    have hmem := Memory.mem_of_lookup_ne (hread ▸ hfill)
    rwa [hread] at hmem

/-- A list with rising addresses holds no entry twice. -/
theorem Memory.nodup_of_rising {m : Memory} (hm : m.Pairwise fun c d => c.1 < d.1) : m.Nodup :=
  hm.imp fun hlt heq => Nat.ne_of_lt hlt (congrArg Prod.fst heq)

/-- Two lists of entries with rising addresses and the same entries are the same list. -/
theorem Memory.eq_of_mem_iff {m n : Memory} (hm : m.Pairwise fun c d => c.1 < d.1) (hn : n.Pairwise fun c d => c.1 < d.1)
    (h : ∀ c, c ∈ m ↔ c ∈ n) : m = n := by
  have hperm : m.Perm n := (List.perm_ext_iff_of_nodup (nodup_of_rising hm) (nodup_of_rising hn)).mpr h
  exact hperm.eq_of_pairwise (fun _ _ _ _ hcd hdc => absurd hdc (Nat.lt_asymm hcd)) hm hn

/-! ### Placing bytes -/

/-- Placing bytes changes memory only. -/
theorem placeBytes_eq_with_mem (s : State) (a : Nat) (bs : List Byte) :
    placeBytes s a bs = { s with mem := (placeBytes s a bs).mem } := by
  induction bs generalizing s a with
  | nil => rfl
  | cons b bs ih =>
    rw [placeBytes, ih]
    split <;> rfl

/-- Placing bytes keeps every byte below the first address and from the end of the placed bytes on. -/
theorem placeBytes_byteAt_outside {s : State} {a c : Nat} {bs : List Byte} (h : c < a ∨ a + bs.length ≤ c) :
    (placeBytes s a bs).byteAt c = s.byteAt c := by
  induction bs generalizing s a with
  | nil => rfl
  | cons b bs ih =>
    rw [List.length_cons] at h
    rw [placeBytes, ih (by omega)]
    split
    · rw [State.storeByte_byteAt, if_neg (by omega)]
    · rfl

/-- Each placed byte that falls within memory is what its address then reads as. -/
theorem placeBytes_byteAt {s : State} {a k c : Nat} {bs : List Byte} {v : Byte} (hk : bs[k]? = some v) (hc : a + k = c)
    (hin : c < Config.memSize) : (placeBytes s a bs).byteAt c = v := by
  induction bs generalizing s a k with
  | nil => cases hk
  | cons b bs ih =>
    rw [placeBytes]
    cases k with
    | zero =>
      cases hk
      obtain rfl : a = c := hc
      rw [placeBytes_byteAt_outside (.inl (Nat.lt_succ_self a)), if_pos hin, State.storeByte_byteAt, if_pos rfl, wrap_byte]
    | succ k => exact ih hk (by omega)

end Sys2Proof.Machine

namespace Sys2Proof.Proofs

open Sys2Proof.Machine

/-- Settles O53: memories that read alike have the same entries, and rising addresses fix their order. -/
theorem canonicalMemoriesThatReadAlikeAreEqual : Obligations.CanonicalMemoriesThatReadAlikeAreEqual := by
  intro m n hm hn hread
  refine Memory.eq_of_mem_iff ((Memory.wf_iff m).mp hm).1 ((Memory.wf_iff n).mp hn).1 fun c => ?_
  rw [Memory.mem_iff_of_wf hm, Memory.mem_iff_of_wf hn]
  exact and_congr_right fun hc => by rw [hread c.1 hc]

/-- Settles O50: an image that fits is placed from address 0 on, where `placeBytes` stores each value modulo 256. -/
theorem loaderWritesTheImageFromZero : Obligations.LoaderWritesTheImageFromZero := by
  refine fun fl m0 image => ⟨fun hlen => ⟨_, if_pos hlen, fun k v hk => ?_, fun a ha => ?_, placeBytes_eq_with_mem _ _ _⟩,
    fun hlen => if_neg (Nat.not_le.mpr hlen)⟩
  · have hbyte : (image.map fun (n : Nat) => wrap n)[k]? = some (wrap v) := by rw [List.getElem?_map, hk]; rfl
    have hfits : k < image.length := (List.getElem?_eq_some_iff.mp hk).1
    rw [← wrap_nat_eq_ofNat_mod]
    exact placeBytes_byteAt hbyte (Nat.zero_add k) (Nat.lt_of_lt_of_le hfits hlen)
  · exact placeBytes_byteAt_outside (.inr (by simpa [Config.loadBase] using ha))

end Sys2Proof.Proofs
end

section
/-! PROOFS. Runs: a pushed byte run as code, a JMP to itself, and the slide over unrecognized bytes. -/

namespace Sys2Proof.Machine

theorem registersInRange_push (i : RegIndex) : (Instr.push (regByte i)).registersInRange = true := by
  simp [Instr.registersInRange, Instr.regOperands]

theorem registersInRange_pop (i : RegIndex) : (Instr.pop (regByte i)).registersInRange = true := by
  simp [Instr.registersInRange, Instr.regOperands]

/-! ### What PUSH and CALL leave on top of the stack -/

/-- After PUSH, SP is one lower and names the pushed register's own value, R7 included: it is read after the decrement (R90). -/
theorem exec_push_top {i : RegIndex} {s t : State} (h : exec (.push (regByte i)) s = .next t) :
    t.sp = wrap (s.sp.toNat - 1) ∧ t.byteAt t.sp.toNat = t.reg i := by
  cases (exec_push_legal i s).symm.trans h
  simp [State.pushed_sp, State.pushed_byteAt, State.pushed_reg]

/-- After CALL, SP is one lower and names the return address modulo 256 (R92). -/
theorem exec_call_top {i : RegIndex} {s t : State} (h : exec (.call (regByte i)) s = .next t) :
    t.sp = wrap (s.sp.toNat - 1) ∧ t.byteAt t.sp.toNat = wrap (s.pc + 2 : Nat) := by
  cases (exec_call_legal i s).symm.trans h
  simp [State.pushed_sp, State.pushed_byteAt]

/-! ### Fetching single instructions -/

/-- A byte 0x01 below 256 is fetched as HLT: no operand byte is read. -/
theorem fetchInstr_hlt {s : State} (hpc : s.pc < Config.memSize) (hop : s.byteAt s.pc = Opcode.hlt.byte) :
    s.fetchInstr = .ok .hlt :=
  decodeFrom_eq_ok_iff.mpr ⟨rfl, (givesEncoding_one rfl).mpr (fetchByte_ok_iff.mpr ⟨hpc, hop.symm⟩)⟩

theorem fetchInstr_jmp {s : State} {r : Byte} (hpc : s.pc + 1 < Config.memSize) (hop : s.byteAt s.pc = Opcode.jmp.byte)
    (hr : s.byteAt (s.pc + 1) = r) : s.fetchInstr = .ok (.jmp r) := by
  refine decodeFrom_eq_ok_iff.mpr ⟨rfl, (givesEncoding_two rfl).mpr ⟨?_, ?_⟩⟩
  · exact fetchByte_ok_iff.mpr ⟨Nat.lt_of_succ_lt hpc, hop.symm⟩
  · exact fetchByte_ok_iff.mpr ⟨hpc, hr.symm⟩

/-! ### Runs of any length -/

/-- A state that steps to itself runs forever. -/
theorem run_of_step_self {s : State} (h : step s = .next s) (n : Nat) : Host.Core.run Sys2Proof.core n s = .next s := by
  induction n with
  | zero => rfl
  | succ n ih => rw [run_succ_of_next n h, ih]

/-- Over unrecognized bytes up to the end of memory, the first `d` steps of a run take the pc to 256 and change nothing else. -/
theorem run_slide (d n : Nat) {s : State} (hs : s.status = .running) (hd : s.pc + d = 256)
    (hop : ∀ a, s.pc ≤ a → a ≤ 255 → ∀ o : Opcode, s.byteAt a ≠ o.byte) :
    Host.Core.run Sys2Proof.core (d + n) s = Host.Core.run Sys2Proof.core n { s with pc := 256 } := by
  induction d generalizing s with
  | zero => rw [Nat.zero_add, ← hd, Nat.add_zero]
  | succ d ih =>
    have hstep : step s = .next { s with pc := s.pc + 1 } :=
      Proofs.unrecognizedByteOnlyAdvancesThePc.2 s hs (by omega) (hop s.pc (Nat.le_refl _) (by omega))
    rw [Nat.succ_add, run_succ_of_next _ hstep]
    exact ih hs (by dsimp only; omega) fun a ha => hop a (Nat.le_of_succ_le ha)

end Sys2Proof.Machine

namespace Sys2Proof.Proofs

open Sys2Proof.Machine

/-- Settles O41: the pushed value is at SP, so a fetch there reads it as an opcode byte. -/
theorem pushedBytesAreFetchedAsCode : Obligations.PushedBytesAreFetchedAsCode := by
  intro s t i hs hi h
  have hrun : ({ t with pc := t.sp.toNat } : State).status = .running := by
    have hstatus := (State.status_running_iff s).mp hs
    refine (State.status_running_iff _).mpr ⟨?_, ?_⟩
    · exact (exec_fault_eq h (registersInRange_push i)).trans hstatus.1
    · exact (exec_running_of_ne_hlt h nofun).trans hstatus.2
  have hbyte : t.byteAt t.sp.toNat = s.reg i := by
    rw [(exec_push_top h).2, exec_reg_eq h (by simpa [writesRegister, Config.spIndex] using hi)]
  refine ⟨fun hhlt => ?_, fun hop => ?_⟩
  · rw [step_of_fetch_ok hrun (fetchInstr_hlt t.sp_lt (hbyte.trans hhlt)), exec_hlt]
    rfl
  · exact unrecognizedByteOnlyAdvancesThePc.2 _ hrun (Nat.le_of_lt_succ t.sp_lt) fun o => hbyte ▸ hop o

/-- Settles O42: the JMP's own address is its target, so the step answers the same state. -/
theorem jumpToItselfRunsForever : Obligations.JumpToItselfRunsForever := by
  intro s k hs hpc hop hr hself
  have hfetch : s.fetchInstr = .ok (.jmp (regByte k)) := fetchInstr_jmp (Nat.lt_succ_of_le (Nat.succ_le_succ hpc)) hop hr
  refine run_of_step_self ?_
  rw [step_of_fetch_ok hs hfetch, exec_jmp_legal, State.jumpTo, hself]

/-- Settles O43: `run_slide` leads to pc 256, where one more step is a fetch past the end of memory. -/
theorem unrecognizedSlideEndsInMemBounds : Obligations.UnrecognizedSlideEndsInMemBounds := by
  intro s hs hpc hop
  have hd : s.pc + (256 - s.pc) = 256 := Nat.add_sub_cancel' hpc
  refine ⟨run_slide _ 0 hs hd hop, ?_⟩
  rw [run_slide _ 1 hs hd hop]
  exact run_succ_of_next 0 ((fetchPastMemoryEndRecordsMemBounds { s with pc := 256 } hs).1 (Nat.le_refl _))

end Sys2Proof.Proofs
end

section
/-! PROOFS. The stack laws of R94: POP undoes PUSH, RET undoes CALL, and balanced stack code restores the registers. -/

namespace Sys2Proof.Machine

/-! ### One pair of instructions -/

/-- POP moves SP up by one; for R7 that needs the popped byte to be SP itself, since SP is computed after the write (R91). -/
theorem exec_pop_sp {i : RegIndex} {u v : State} (h : exec (.pop (regByte i)) u = .next v)
    (htop : i = Config.spIndex → u.byteAt u.sp.toNat = u.sp) : v.sp = wrap (u.sp.toNat + 1) := by
  cases (exec_pop_legal i u).symm.trans h
  have hkeep : (u.setReg i (u.byteAt u.sp.toNat).toNat).sp = u.sp := by
    rw [State.sp, State.setReg_reg, wrap_byte]
    split
    · exact htop ‹_›
    · rfl
  rw [State.advance_sp, State.setSp_sp, hkeep]

theorem exec_pop_reg {i : RegIndex} {u v : State} (h : exec (.pop (regByte i)) u = .next v) (hi : i ≠ Config.spIndex) :
    v.reg i = u.byteAt u.sp.toNat := by
  cases (exec_pop_legal i u).symm.trans h
  simp [hi.symm]

/-- PUSH of a register, anything that brings SP back and keeps the pushed byte, then POP of it: the register and SP are as
before. -/
theorem pop_undoes_push {i : RegIndex} {s t u v : State} (hpush : exec (.push (regByte i)) s = .next t) (hsp : u.sp = t.sp)
    (htop : u.byteAt t.sp.toNat = t.byteAt t.sp.toNat) (hpop : exec (.pop (regByte i)) u = .next v) :
    v.reg i = s.reg i ∧ v.sp = s.sp := by
  obtain ⟨htsp, ht⟩ := exec_push_top hpush
  have hread : u.byteAt u.sp.toNat = t.reg i := by rw [hsp, htop, ht]
  have hvsp : v.sp = s.sp := by
    have hup := exec_pop_sp hpop fun hi => by rw [hread, hsp, hi, State.sp]
    rw [hup, hsp, htsp, wrap_succ_pred]
  refine ⟨?_, hvsp⟩
  by_cases hi : i = Config.spIndex
  · rw [hi]
    exact hvsp
  · rw [exec_pop_reg hpop hi, hread, exec_reg_eq hpush (by simpa [writesRegister] using hi)]

theorem State.reg_congr {s t : State} (h : t.regs = s.regs) (k : RegIndex) : t.reg k = s.reg k := by
  rw [State.reg, State.reg, h]

/-- When what lies between PUSH and POP restores every register, so does the whole. -/
theorem pop_undoes_push_regs {i : RegIndex} {s t u v : State} (hpush : exec (.push (regByte i)) s = .next t)
    (hregs : u.regs = t.regs) (htop : u.byteAt t.sp.toNat = t.byteAt t.sp.toNat)
    (hpop : exec (.pop (regByte i)) u = .next v) : v.regs = s.regs := by
  obtain ⟨hvi, hvsp⟩ := pop_undoes_push hpush (State.reg_congr hregs _) htop hpop
  refine State.regs_ext fun k => ?_
  by_cases hk : k = Config.spIndex
  · rw [hk]
    exact hvsp
  · by_cases hki : k = i
    · rw [hki, hvi]
    · rw [exec_reg_eq hpop (by simp [writesRegister, hk, Ne.symm hki]), State.reg_congr hregs,
        exec_reg_eq hpush (by simpa [writesRegister] using hk)]

/-! ### Balanced code -/

/-- `t` is `s` but for a pc `n` bytes further on and the memory in the `d` bytes below SP. -/
structure SameButBelowSp (d n : Nat) (s t : State) : Prop where
  regs : t.regs = s.regs
  pc : t.pc = s.pc + n
  fl : t.fl = s.fl
  running : t.running = s.running
  fault : t.fault = s.fault
  out : t.out = s.out
  byteAt : ∀ a, (∀ k, 1 ≤ k → k ≤ d → a ≠ (s.sp.toNat + 256 - k) % 256) → t.byteAt a = s.byteAt a

theorem SameButBelowSp.refl (s : State) : SameButBelowSp 0 0 s s := ⟨rfl, rfl, rfl, rfl, rfl, rfl, fun _ _ => rfl⟩

theorem SameButBelowSp.sp_eq {d n : Nat} {s t : State} (h : SameButBelowSp d n s t) : t.sp = s.sp := State.reg_congr h.regs _

theorem SameButBelowSp.trans {d e m n : Nat} {s t u : State} (hst : SameButBelowSp d m s t) (htu : SameButBelowSp e n t u) :
    SameButBelowSp (max d e) (m + n) s u where
  regs := htu.regs.trans hst.regs
  pc := by rw [htu.pc, hst.pc, Nat.add_assoc]
  fl := htu.fl.trans hst.fl
  running := htu.running.trans hst.running
  fault := htu.fault.trans hst.fault
  out := htu.out.trans hst.out
  byteAt a ha := by
    rw [htu.byteAt a fun k h1 hk => hst.sp_eq ▸ ha k h1 (Nat.le_trans hk (Nat.le_max_right d e)),
      hst.byteAt a fun k h1 hk => ha k h1 (Nat.le_trans hk (Nat.le_max_left d e))]

/-- Code that touches at most 255 bytes below SP, between a PUSH and the matching POP: the pushed byte survives, because the bytes
below the new SP wrap around to it only at the 256th, and so the pair and the code together restore the registers. -/
theorem SameButBelowSp.around {d n : Nat} {i : RegIndex} {s t u v : State} (hd : d + 1 ≤ 256)
    (hpush : exec (.push (regByte i)) s = .next t) (hin : SameButBelowSp d n t u)
    (hpop : exec (.pop (regByte i)) u = .next v) : SameButBelowSp (d + 1) (n + 4) s v := by
  have htsp : t.sp.toNat = (s.sp.toNat + 255) % 256 := by rw [(exec_push_top hpush).1, wrap_pred_toNat]
  have htop : u.byteAt t.sp.toNat = t.byteAt t.sp.toNat := by
    refine hin.byteAt _ fun k h1 hk => ?_
    have := t.sp_lt
    simp only [Config.memSize] at this
    omega
  have hvmem : v.mem = u.mem := exec_mem_of_ne_push_call hpop fun _ => ⟨nofun, nofun⟩
  refine ⟨pop_undoes_push_regs hpush hin.regs htop hpop, ?_, ?_, ?_, ?_, ?_, fun a ha => ?_⟩
  · have htpc : t.pc = s.pc + 2 := Proofs.pcAdvancesByLengthUnlessTransferred s t _ (registersInRange_push i) hpush
    have hvpc : v.pc = u.pc + 2 := Proofs.pcAdvancesByLengthUnlessTransferred u v _ (registersInRange_pop i) hpop
    have := hin.pc
    omega
  · rw [exec_fl_of_ne_cmp hpop nofun, hin.fl, exec_fl_of_ne_cmp hpush nofun]
  · rw [exec_running_of_ne_hlt hpop nofun, hin.running, exec_running_of_ne_hlt hpush nofun]
  · rw [exec_fault_eq hpop (registersInRange_pop i), hin.fault, exec_fault_eq hpush (registersInRange_push i)]
  · rw [exec_out_of_ne_prn hpop nofun, hin.out, exec_out_of_ne_prn hpush nofun]
  · have hne : a ≠ (wrap (s.sp.toNat - 1)).toNat := by
      have := ha 1 (Nat.le_refl 1) (Nat.le_add_left 1 d)
      rw [wrap_pred_toNat]
      omega
    have hbelow : ∀ k, 1 ≤ k → k ≤ d → a ≠ (t.sp.toNat + 256 - k) % 256 := by
      intro k h1 hk
      have := ha (k + 1) (Nat.le_add_left 1 k) (Nat.succ_le_succ hk)
      omega
    rw [State.byteAt_congr hvmem, hin.byteAt a hbelow, exec_byteAt_eq hpush hne]

theorem Balanced.code_around_length (i : RegIndex) (inner after : Balanced) :
    2 * (Balanced.around i inner after).code.length = (2 * inner.code.length + 4) + 2 * after.code.length := by
  simp only [Balanced.code, List.length_cons, List.length_append]
  omega

/-- Balanced code at most 256 bytes deep runs to completion, restores every register and writes only below SP, no deeper than its
own depth (R94). -/
theorem Balanced.restores (p : Balanced) {s : State} (hd : p.depth ≤ 256) :
    ∃ t, execAll p.code s = .next t ∧ SameButBelowSp p.depth (2 * p.code.length) s t := by
  induction p generalizing s with
  | done => exact ⟨s, rfl, .refl s⟩
  | around i inner after ihInner ihAfter =>
    obtain ⟨hinner, hafter⟩ : inner.depth + 1 ≤ 256 ∧ after.depth ≤ 256 := Nat.max_le.mp hd
    obtain ⟨t, ht⟩ := exec_next (.push (regByte i)) s
    obtain ⟨u, hu, htu⟩ := ihInner (s := t) (Nat.le_of_succ_le hinner)
    obtain ⟨v, hv⟩ := exec_next (.pop (regByte i)) u
    obtain ⟨w, hw, hvw⟩ := ihAfter (s := v) hafter
    refine ⟨w, ?_, ?_⟩
    · rw [Balanced.code, execAll_cons_of_next ht, execAll_append_of_next hu, execAll_cons_of_next hv, hw]
    · rw [Balanced.code_around_length]
      exact (htu.around hinner ht hv).trans hvw

end Sys2Proof.Machine

namespace Sys2Proof.Proofs

open Sys2Proof.Machine

/-- Settles O57: POP always answers a next state, and `pop_undoes_push` says what it restores. -/
theorem popUndoesPush : Obligations.PopUndoesPush := by
  intro s t u i hpush hsp htop
  obtain ⟨v, hv⟩ := exec_next (.pop (regByte i)) u
  exact ⟨v, hv, pop_undoes_push hpush hsp htop hv⟩

/-- Settles O58: the byte at SP is the return address modulo 256, which RET takes as the pc. -/
theorem retUndoesCall : Obligations.RetUndoesCall := by
  intro s t u i hcall hsp htop
  obtain ⟨htsp, ht⟩ := exec_call_top hcall
  refine ⟨_, exec_ret u, ?_, ?_⟩
  · rw [State.jumpTo_pc, hsp, htop, ht, wrap_nat, BitVec.toNat_ofNat]
  · rw [State.jumpTo_sp, State.setSp_sp, hsp, htsp, wrap_succ_pred]

/-- Settles O59: the induction over balanced code, its conclusion taken apart. -/
theorem balancedStackCodeRestoresRegisters : Obligations.BalancedStackCodeRestoresRegisters := by
  intro p s hd
  obtain ⟨t, ht, h⟩ := p.restores hd
  exact ⟨t, ht, h.regs, h.pc, h.fl, h.running, h.fault, h.out, h.byteAt⟩

end Sys2Proof.Proofs
end

section
/-! PROOFS. The ALU against signed arithmetic, and the idioms of R71. -/

namespace Sys2Proof.Machine

/-! ### ADD and MUL as arithmetic on bytes -/

theorem wrap_add_bytes (a b : Byte) : wrap (a.toNat + b.toNat) = a + b := by
  rw [wrap, BitVec.ofInt_add, ← wrap, ← wrap, wrap_byte, wrap_byte]

theorem wrap_mul_bytes (a b : Byte) : wrap (a.toNat * b.toNat) = a * b := by
  rw [wrap, BitVec.ofInt_mul, ← wrap, ← wrap, wrap_byte, wrap_byte]

theorem State.alu_add_reg (s : State) (i j : RegIndex) : (s.alu .add i j).reg i = s.reg i + s.reg j := by
  rw [State.alu, State.setReg_reg, if_pos rfl, wrap_add_bytes]

theorem State.alu_mul_reg (s : State) (i j : RegIndex) : (s.alu .mul i j).reg i = s.reg i * s.reg j := by
  rw [State.alu, State.setReg_reg, if_pos rfl, wrap_mul_bytes]

/-! ### Two instructions in a row -/

theorem execAll_two {i j : Instr} {s t u : State} (hi : exec i s = .next t) (hj : exec j t = .next u) :
    execAll [i, j] s = .next u := by
  rw [execAll_cons_of_next hi, execAll_cons_of_next hj, execAll]

/-- LDI of a byte into a register and then ADD, which may read that register as either operand. -/
theorem execAll_ldi_add (s : State) (r d x : RegIndex) (v : Byte) :
    ∃ t, execAll [.ldi (regByte r) v, .add (regByte d) (regByte x)] s = .next t ∧
      t.reg d = (if r = d then v else s.reg d) + (if r = x then v else s.reg x) := by
  refine ⟨_, execAll_two (exec_ldi_legal r v s) (exec_add_legal d x _), ?_⟩
  simp only [State.advance_reg, State.alu_add_reg, State.setReg_reg, wrap_byte]

end Sys2Proof.Machine

namespace Sys2Proof.Proofs

open Sys2Proof.Machine

/-- Settles O56: both readings of a byte reduce to the byte itself, and reduction modulo 256 keeps sums and products. -/
theorem aluBitsAgreeWithSignedArithmetic : Obligations.AluBitsAgreeWithSignedArithmetic := by
  refine fun s i j => ⟨?_, ?_⟩
  · rw [State.alu_add_reg, BitVec.ofInt_add, BitVec.ofInt_toInt, BitVec.ofInt_toInt]
  · rw [State.alu_mul_reg, BitVec.ofInt_mul, BitVec.ofInt_toInt, BitVec.ofInt_toInt]

/-- Settles O60: adding 255 is subtracting 1 and adding to 0 is copying, modulo 256; the jump reads what LDI wrote. -/
theorem idiomsDecrementMoveAndJump : Obligations.IdiomsDecrementMoveAndJump := by
  refine ⟨fun s d r hdr => ?decrement, fun s d r hdr => ?move, fun s r v => ?jump⟩
  case decrement =>
    obtain ⟨t, ht, hsum⟩ := execAll_ldi_add s r d r 255#8
    rw [if_neg hdr.symm, if_pos rfl] at hsum
    refine ⟨t, ht, ?_⟩
    rw [hsum, BitVec.toNat_add, BitVec.toNat_ofNat]
    omega
  case move =>
    obtain ⟨t, ht, hsum⟩ := execAll_ldi_add s d d r 0#8
    rw [if_pos rfl, if_neg hdr, BitVec.zero_add] at hsum
    exact ⟨t, ht, hsum⟩
  case jump => exact ⟨_, execAll_two (exec_ldi_legal r v s) (exec_jmp_legal r _), by simp⟩

end Sys2Proof.Proofs
end
